-- ==== Sys2Proof/Word.lean ====
section
/-! DEFINITION. The word types of CYOENC-CORE: a 32-bit register or command word, an 8-bit unit (a byte or a
symbol, R12) and the 64-bit accumulator (R5, `ACC_W`). -/

namespace Sys2Proof

/-- A 32-bit register value or command word (R7, R100). -/
abbrev Word := BitVec 32

/-- A unit: one 8-bit item of the input or output side (R12). -/
abbrev Byte := BitVec 8

/-- The width of the accumulator ACC, `ACC_W` (R5). -/
abbrev AccWord := BitVec 64

end Sys2Proof
end

