-- ==== Sys2Proof/Syntax.lean ====
section
/-! DEFINITION. The command set (R103, R104): one constructor of `Instr` per row of spec/opcode_table.json, and the
configuration a CFG row names. -/

namespace Sys2Proof

/-- The five codecs, in the order of their CODEC numbers 0 to 4 (R32, R150). -/
inductive Codec where
  | b16
  | b32
  | b64
  | b85
  | b36
deriving DecidableEq, Repr

/-- The two directions: DIR = 0 is encode, DIR = 1 is decode (R32). -/
inductive Dir where
  | enc
  | dec
deriving DecidableEq, Repr

/-- A configuration: the fields CODEC, DIR, OPTPAD and FOLDZ of CFGR and of a CFG word (R32, R101). CODEC values 5
to 7 are never held (R32, I13), so they have no value here. -/
structure Cfg where
  codec : Codec
  dir : Dir
  optpad : Bool
  foldz : Bool
deriving DecidableEq, Repr

/-- A command: one constructor per row of spec/opcode_table.json. -/
inductive Instr where
  | cfgB16Enc
  | cfgB16Dec
  | cfgB32Enc
  | cfgB32EncOptpad
  | cfgB32Dec
  | cfgB32DecOptpad
  | cfgB64Enc
  | cfgB64EncOptpad
  | cfgB64Dec
  | cfgB64DecOptpad
  | cfgB85Enc
  | cfgB85EncFoldz
  | cfgB85Dec
  | cfgB85DecFoldz
  | cfgB36Enc
  | cfgB36Dec
  | lchk (len28 : BitVec 28)
  | push (unit : Byte)
  | endOp
  | abort
deriving DecidableEq, Repr

end Sys2Proof
end

