-- ==== Sys2Proof/WellFormed.lean ====
section
/-! DEFINITION. Well-formedness. The operands of LCHK and PUSH have no illegal value (R102, R105), so the one check of
the spec is that of a CFG word's fields (R104): CODEC at most 4, OPTPAD only with B32 or B64, FOLDZ only with B85. It
is made on the raw fields, where every value of the bits can be written, and carried over to `Cfg` and `Instr`. -/

namespace Sys2Proof

/-- The fields of a format C word as bits (R101), before any check. -/
structure CfgFields where
  codec : BitVec 3
  dir : Bool
  optpad : Bool
  foldz : Bool
deriving DecidableEq, Repr

/-- R104: CODEC <= 4, (OPTPAD = 0 or CODEC in {1, 2}) and (FOLDZ = 0 or CODEC = 3). -/
def CfgFields.legal (f : CfgFields) : Bool :=
  decide (f.codec.toNat ≤ 4)
    && (!f.optpad || f.codec == 1 || f.codec == 2)
    && (!f.foldz || f.codec == 3)

/-- The CODEC number of a codec (R32). -/
def Codec.number : Codec → BitVec 3
  | .b16 => 0
  | .b32 => 1
  | .b64 => 2
  | .b85 => 3
  | .b36 => 4

/-- The DIR bit of a direction (R32). -/
def Dir.bit : Dir → Bool
  | .enc => false
  | .dec => true

/-- A configuration as bits. -/
def Cfg.fields (c : Cfg) : CfgFields := ⟨c.codec.number, c.dir.bit, c.optpad, c.foldz⟩

/-- A configuration that a legal CFG word can name (R104). -/
def Cfg.legal (c : Cfg) : Bool := c.fields.legal

/-- The configuration a CFG command names (the 16 rows of R104); no configuration for the other commands. -/
def Instr.cfg? : Instr → Option Cfg
  | .cfgB16Enc => some ⟨.b16, .enc, false, false⟩
  | .cfgB16Dec => some ⟨.b16, .dec, false, false⟩
  | .cfgB32Enc => some ⟨.b32, .enc, false, false⟩
  | .cfgB32EncOptpad => some ⟨.b32, .enc, true, false⟩
  | .cfgB32Dec => some ⟨.b32, .dec, false, false⟩
  | .cfgB32DecOptpad => some ⟨.b32, .dec, true, false⟩
  | .cfgB64Enc => some ⟨.b64, .enc, false, false⟩
  | .cfgB64EncOptpad => some ⟨.b64, .enc, true, false⟩
  | .cfgB64Dec => some ⟨.b64, .dec, false, false⟩
  | .cfgB64DecOptpad => some ⟨.b64, .dec, true, false⟩
  | .cfgB85Enc => some ⟨.b85, .enc, false, false⟩
  | .cfgB85EncFoldz => some ⟨.b85, .enc, false, true⟩
  | .cfgB85Dec => some ⟨.b85, .dec, false, false⟩
  | .cfgB85DecFoldz => some ⟨.b85, .dec, false, true⟩
  | .cfgB36Enc => some ⟨.b36, .enc, false, false⟩
  | .cfgB36Dec => some ⟨.b36, .dec, false, false⟩
  | .lchk _ => none
  | .push _ => none
  | .endOp => none
  | .abort => none

/-- A command is well formed when the configuration it names, if it names one, is legal (R104). The operands of LCHK
and PUSH are legal at every value of their width (R102, R105). -/
def Instr.WellFormed (i : Instr) : Bool :=
  match i.cfg? with
  | some c => c.legal
  | none => true

end Sys2Proof
end

