-- ==== Sys2Proof/Decode.lean ====
section
/-! DEFINITION. Decoding of a command word, total on every 32-bit word and rejecting by name (R100 to R106), and the
encoder written from the same formats. A word's meaning depends on the word alone (R100). The bus byte order of a word
is not visible to the block (R74), so decoding starts at the word's value. -/

namespace Sys2Proof

/-- Why a word is illegal (R105). -/
inductive DecodeReject where
  /-- OP is 0x0 or 0x6 to 0xF. -/
  | reservedOp
  /-- OP = 0x1 and the word is not in the list of R104. -/
  | illegalCfg
  /-- OP = 0x3 and w[27:8] != 0. -/
  | pushReservedBits
  /-- OP = 0x4 and w[27:0] != 0. -/
  | endReservedBits
  /-- OP = 0x5 and w[27:0] != 0. -/
  | abortReservedBits
deriving DecidableEq, Repr

/-- Field OP = w[31:28] (R101). -/
def opField (w : Word) : BitVec 4 := w.extractLsb' 28 4

/-- Field LEN28 = w[27:0] (R102), which is also the reserved field of format Z. -/
def len28Field (w : Word) : BitVec 28 := w.extractLsb' 0 28

/-- Field UNIT = w[7:0] (R102). -/
def unitField (w : Word) : Byte := w.extractLsb' 0 8

/-- The reserved field w[27:8] of format P (R101). -/
def pushReserved (w : Word) : BitVec 20 := w.extractLsb' 8 20

/-- The reserved field w[27:6] of format C (R101). -/
def cfgReserved (w : Word) : BitVec 22 := w.extractLsb' 6 22

/-- CODEC = w[2:0], DIR = w[3], OPTPAD = w[4], FOLDZ = w[5] (R102). -/
def cfgFieldsOf (w : Word) : CfgFields :=
  ⟨w.extractLsb' 0 3, w.getLsbD 3, w.getLsbD 4, w.getLsbD 5⟩

/-- The CFG command whose fields are `f`: the 16 rows of R104, and nothing for other fields. -/
def cfgInstr (f : CfgFields) : Option Instr :=
  match f.codec.toNat, f.dir, f.optpad, f.foldz with
  | 0, false, false, false => some .cfgB16Enc
  | 0, true, false, false => some .cfgB16Dec
  | 1, false, false, false => some .cfgB32Enc
  | 1, false, true, false => some .cfgB32EncOptpad
  | 1, true, false, false => some .cfgB32Dec
  | 1, true, true, false => some .cfgB32DecOptpad
  | 2, false, false, false => some .cfgB64Enc
  | 2, false, true, false => some .cfgB64EncOptpad
  | 2, true, false, false => some .cfgB64Dec
  | 2, true, true, false => some .cfgB64DecOptpad
  | 3, false, false, false => some .cfgB85Enc
  | 3, false, false, true => some .cfgB85EncFoldz
  | 3, true, false, false => some .cfgB85Dec
  | 3, true, false, true => some .cfgB85DecFoldz
  | 4, false, false, false => some .cfgB36Enc
  | 4, true, false, false => some .cfgB36Dec
  | _, _, _, _ => none

/-- Decoding of a format C word (R104, R106). -/
def decodeCfg (w : Word) : Except DecodeReject Instr :=
  if cfgReserved w = 0 then
    match cfgInstr (cfgFieldsOf w) with
    | some i => .ok i
    | none => .error .illegalCfg
  else .error .illegalCfg

/-- Decoding of a command word (R106). -/
def decode (w : Word) : Except DecodeReject Instr :=
  match (opField w).toNat with
  | 1 => decodeCfg w
  | 2 => .ok (.lchk (len28Field w))
  | 3 => if pushReserved w = 0 then .ok (.push (unitField w)) else .error .pushReservedBits
  | 4 => if len28Field w = 0 then .ok .endOp else .error .endReservedBits
  | 5 => if len28Field w = 0 then .ok .abort else .error .abortReservedBits
  | _ => .error .reservedOp

/-- The instruction the decoder reads from an instruction word given as the number `w` of `nbits` bits, bit 0 its least
significant bit. Every command is one 32-bit word (R100), so a number that does not fit 32 bits is no command. -/
def decodeTableWord (nbits w : Nat) : Option Instr :=
  let v := w % 2 ^ nbits
  if v < 2 ^ 32 then
    match decode (BitVec.ofNat 32 v) with
    | .ok i => some i
    | .error _ => none
  else none

/-- The low six bits of a configuration: CODEC in bits 2:0, DIR in bit 3, OPTPAD in bit 4, FOLDZ in bit 5 (R32,
R101). -/
def Cfg.bits (c : Cfg) : BitVec 6 :=
  BitVec.ofBool c.foldz ++ BitVec.ofBool c.optpad ++ BitVec.ofBool c.dir.bit ++ c.codec.number

/-- A format C word: OP = 0x1, w[27:6] = 0, then the configuration (R101). -/
def encodeCfg (c : Cfg) : Word := (1#4) ++ (0#22) ++ c.bits

/-- A format Z word: OP and 28 zero bits (R101). -/
def encodeZ (op : BitVec 4) : Word := op ++ (0#28)

/-- The word of a command (R101, R103, R104). -/
def encode (i : Instr) : Word :=
  match i with
  | .cfgB16Enc => encodeCfg ⟨.b16, .enc, false, false⟩
  | .cfgB16Dec => encodeCfg ⟨.b16, .dec, false, false⟩
  | .cfgB32Enc => encodeCfg ⟨.b32, .enc, false, false⟩
  | .cfgB32EncOptpad => encodeCfg ⟨.b32, .enc, true, false⟩
  | .cfgB32Dec => encodeCfg ⟨.b32, .dec, false, false⟩
  | .cfgB32DecOptpad => encodeCfg ⟨.b32, .dec, true, false⟩
  | .cfgB64Enc => encodeCfg ⟨.b64, .enc, false, false⟩
  | .cfgB64EncOptpad => encodeCfg ⟨.b64, .enc, true, false⟩
  | .cfgB64Dec => encodeCfg ⟨.b64, .dec, false, false⟩
  | .cfgB64DecOptpad => encodeCfg ⟨.b64, .dec, true, false⟩
  | .cfgB85Enc => encodeCfg ⟨.b85, .enc, false, false⟩
  | .cfgB85EncFoldz => encodeCfg ⟨.b85, .enc, false, true⟩
  | .cfgB85Dec => encodeCfg ⟨.b85, .dec, false, false⟩
  | .cfgB85DecFoldz => encodeCfg ⟨.b85, .dec, false, true⟩
  | .cfgB36Enc => encodeCfg ⟨.b36, .enc, false, false⟩
  | .cfgB36Dec => encodeCfg ⟨.b36, .dec, false, false⟩
  | .lchk len28 => (2#4) ++ len28
  | .push unit => (3#4) ++ (0#20) ++ unit
  | .endOp => encodeZ 4
  | .abort => encodeZ 5

end Sys2Proof
end

