-- ==== Sys2Proof/Config.lean ====
section
/-! DEFINITION. What an implementation of CYOENC-CORE fixes (R5, items I3 to I8 of spec/93): the parameters the
spec gives a default and an alternative for, as one plain structure that the model carries and never changes, and
the fixed quantities. `ENGINE_BASE` and `N_ENGINES`, the OPEN parameters, are arguments of
Sys2Proof/Machine/Platform.lean. -/

namespace Sys2Proof.Config

/-- `B36_M`: Base36 symbols per full block, 7 by default, 6 allowed (R5, I3, conflict C4). -/
inductive B36M where
  | seven
  | six
deriving DecidableEq, Repr

/-- `B36_M` as a count of symbols. -/
def B36M.count : B36M → Nat
  | .seven => 7
  | .six => 6

/-- `OVF_POLICY`: what a Base85 or Base36 group above 2^32 - 1 does (R5, I4). -/
inductive OvfPolicy where
  | error
  | wrap
deriving DecidableEq, Repr

/-- `OUT_DEPTH`: the capacity of the output FIFO (R5, I5): a number of units, or unbounded. -/
inductive OutDepth where
  | units (n : Nat)
  | unbounded
deriving DecidableEq, Repr

/-- The parameters of R5 that are not OPEN. -/
structure Params where
  b36m : B36M
  ovf : OvfPolicy
  outDepth : OutDepth
deriving DecidableEq, Repr

/-- The default values of R5: `B36_M` = 7, `OVF_POLICY` = ERROR, `OUT_DEPTH` = 16. -/
def Params.default : Params := ⟨.seven, .error, .units 16⟩

/-- `MAX_EMIT`: the most units one command can append to the output FIFO (R5, R157). -/
def maxEmit : Nat := 8

/-- The size in bytes of one instance's register window (R70). -/
def windowBytes : Nat := 256

/-- The admitted parameter values: `OUT_DEPTH` is at least 8 or unbounded (I5, R455). -/
abbrev Params.Admitted (p : Params) : Prop :=
  match p.outDepth with
  | .units n => 8 ≤ n
  | .unbounded => True

end Sys2Proof.Config
end

