-- ==== Sys2Proof/Machine/State.lean ====
section
/-! DEFINITION. The state of one engine instance (R30 to R50): the tuple (CFGR, PHASE, CAUSE, ERROFF, OFFSET, OUTCNT,
ACC, BLK, PADCNT, PADOFF, CLOSED, FIFO) of R50, and beside it what a model with one step function must hold: the
implementation's parameters, the host agent that is admitted, the host's accesses still to come and the values the
host has read. STATUS and OUTDATA are views of this state (Flags.lean, Window.lean), not fields. -/

namespace Sys2Proof.Machine

open Sys2Proof Sys2Proof.Config

/-- PHASE (R33), a 2-bit field whose four values are all named. -/
inductive Phase where
  | idle
  | active
  | done
  | error
deriving DecidableEq, Repr

/-- CAUSE (R34), a 3-bit field; the values 6 and 7 are never written (R34, I13) and have no name. -/
inductive Cause where
  | none
  | badLength
  | badCharacter
  | illegalCommand
  | sequence
  | overrun
deriving DecidableEq, Repr

/-- What a host access asks for: a read, or a write of a word. -/
inductive AccessKind where
  | read
  | write (w : Word)
deriving DecidableEq, Repr

/-- One access of a host agent to the register window (R71, R75, R80): the agent, the byte offset from ENGINE_BASE, the
width in bytes and the kind. -/
structure HostAccess where
  agent : Nat
  offset : BitVec 8
  bytes : Nat
  kind : AccessKind
deriving DecidableEq, Repr

/-- What the outside world does to an instance: a host access (R84), or a reset of the instance (R450, R452). -/
inductive HostEvent where
  | access (a : HostAccess)
  | reset
deriving DecidableEq, Repr

/-- The state of one engine instance. -/
structure State where
  /-- CFGR (R32): the four fields of the 32-bit register, whose bits 31:6 read as 0. -/
  cfgr : Cfg
  /-- PHASE (R33), STATUS[1:0]. -/
  phase : Phase
  /-- CAUSE (R34), STATUS[4:2]. -/
  cause : Cause
  /-- ERROFF (R35). -/
  errOff : Word
  /-- OFFSET (R36). -/
  offset : Word
  /-- OUTCNT (R37). -/
  outCnt : Word
  /-- ACC (R38), hidden. -/
  acc : AccWord
  /-- BLK (R39), STATUS[10:7]. -/
  blk : BitVec 4
  /-- PADCNT (R40), STATUS[13:11]. -/
  padCnt : BitVec 3
  /-- PADOFF (R41), hidden. -/
  padOff : Word
  /-- CLOSED (R42), STATUS[14]. -/
  closed : Bool
  /-- The output FIFO (R43), its head first. -/
  fifo : List Byte
  /-- The implementation's parameters (R5); no step changes them. -/
  params : Params
  /-- The one host agent that may drive this instance (R80); no step changes it. -/
  owner : Nat
  /-- The model's own: what the host still does to this instance, the next thing first (R79, R84). -/
  events : List HostEvent
  /-- The model's own: the values returned to the host's reads, the oldest first (R76). -/
  replies : List Word
deriving DecidableEq, Repr

/-- Why a step has no next state though the access was to the block. An error of a command is NOT a fault: it is
latched in PHASE, CAUSE and ERROFF and the machine goes on (R404). -/
inductive Fault where
  /-- R75, I15: a host access that is not an aligned 32-bit access; the access is refused and the host that issues it
  is stuck. Raised by the fetch of a host event (Window.lean). Safe: the model stops where nothing is specified. -/
  | accessStuck
  /-- R77: the address map is the windows and nothing else. Raised by Platform.lean alone, for an address in no
  window. Safe: the address does not belong to this hardware. -/
  | outsideWindows
deriving DecidableEq, Repr

/-- Why a step is refused. -/
inductive Refusal where
  /-- An instruction without a meaning; no arm of exec answers so. Safe. -/
  | notModelled (mnemonic : String)
  /-- R80, I16: a second host agent's access to an instance is refused. Raised by the fetch of a host event
  (Window.lean). Safe: the use is outside those the spec admits. -/
  | secondAgent
deriving DecidableEq, Repr

/-- The outcome of a step of one instance. -/
abbrev StepOutcome := Host.Outcome State Fault Refusal

/-- R450: every register 0, PHASE IDLE, CAUSE NONE, the FIFO empty; with the parameters `p` and the host agent
`agent`, and nothing sent by the host yet. -/
def State.resetWith (p : Params) (agent : Nat) : State where
  cfgr := ⟨.b16, .enc, false, false⟩
  phase := .idle
  cause := .none
  errOff := 0
  offset := 0
  outCnt := 0
  acc := 0
  blk := 0
  padCnt := 0
  padOff := 0
  closed := false
  fifo := []
  params := p
  owner := agent
  events := []
  replies := []

/-- The machine right after reset (R450), with the default parameters of R5 and host agent 0. -/
def State.reset : State := State.resetWith Params.default 0

end Sys2Proof.Machine
end

