-- ==== Sys2Proof/Machine/Flags.lean ====
section
/-! DEFINITION. The flags: the STATUS fields (R44, R45) with their numeric codes (R33, R34, R400), the STATUS word and
the CFGR word (R32). -/

namespace Sys2Proof.Machine

open Sys2Proof Sys2Proof.Config

/-- The code of a phase in STATUS[1:0] (R33). -/
def phaseCode : Phase → BitVec 2
  | .idle => 0
  | .active => 1
  | .done => 2
  | .error => 3

/-- The code of a cause in STATUS[4:2] (R34, R400). -/
def causeCode : Cause → BitVec 3
  | .none => 0
  | .badLength => 1
  | .badCharacter => 2
  | .illegalCommand => 3
  | .sequence => 4
  | .overrun => 5

/-- READY = 1 exactly when OUT_DEPTH - OCC >= MAX_EMIT, always when the FIFO is unbounded (R44). -/
def State.ready (s : State) : Bool :=
  match s.params.outDepth with
  | .units n => decide (s.fifo.length + maxEmit ≤ n)
  | .unbounded => true

/-- OUTVALID = 1 exactly when OCC > 0 (R44). -/
def State.outValid (s : State) : Bool := !s.fifo.isEmpty

/-- The STATUS word (R44): PHASE, CAUSE, READY, OUTVALID, BLK, PADCNT, CLOSED from bit 0 up, bits 31:15 zero. -/
def State.status (s : State) : Word :=
  (0#17) ++ BitVec.ofBool s.closed ++ s.padCnt ++ s.blk ++ BitVec.ofBool s.outValid ++ BitVec.ofBool s.ready
    ++ causeCode s.cause ++ phaseCode s.phase

/-- The CFGR word (R32): CODEC, DIR, OPTPAD, FOLDZ from bit 0 up, bits 31:6 zero. -/
def State.cfgrWord (s : State) : Word := (0#26) ++ s.cfgr.bits

end Sys2Proof.Machine
end

