-- ==== Sys2Proof/Machine/Alphabet.lean ====
section
/-! DEFINITION. The alphabet tables (spec/40): the charsets, `BuildTables`, the eight read-only table spaces of R72 and
`MemRead`. The tables are constants of the design, not state (R49, R133). -/

namespace Sys2Proof.Machine

open Sys2Proof

/-- `n` consecutive ASCII codes from `first` (R9). -/
def asciiRun (first n : Nat) : List Byte := (List.range' first n).map (BitVec.ofNat 8)

/-- The charset of each table codec (R135 to R138); Base85 has no table (R139). -/
def charset : Codec → List Byte
  | .b16 => asciiRun 0x30 10 ++ asciiRun 0x41 6
  | .b32 => asciiRun 0x41 26 ++ asciiRun 0x32 6 ++ [0x3D#8]
  | .b64 => asciiRun 0x41 26 ++ asciiRun 0x61 26 ++ asciiRun 0x30 10 ++ [0x2B#8, 0x2F#8, 0x3D#8]
  | .b85 => []
  | .b36 => asciiRun 0x30 10 ++ asciiRun 0x41 26

/-- The INVALID sentinel of a decode table (R132). -/
def invalidEntry : Byte := 0xFF#8

/-- `encodeTable[d] = charset[d]` (R130). -/
def buildEnc (cs : List Byte) : List Byte := cs

/-- One entry of a decode table: the index of the code `c` in the charset, or INVALID (R130). -/
def decEntry (cs : List Byte) (c : Nat) : Byte :=
  match cs.findIdx? (fun u => u == BitVec.ofNat 8 c) with
  | some d => BitVec.ofNat 8 d
  | none => invalidEntry

/-- `decodeTable` for the codes 0 to 127 (R130). -/
def buildDec (cs : List Byte) : List Byte := (List.range 128).map (decEntry cs)

/-- The eight table spaces (R72). -/
inductive TableSpace where
  | encB16
  | encB32
  | encB64
  | encB36
  | decB16
  | decB32
  | decB64
  | decB36
deriving DecidableEq, Repr

/-- The contents of a table space (R72, R130). -/
def tableContents : TableSpace → List Byte
  | .encB16 => buildEnc (charset .b16)
  | .encB32 => buildEnc (charset .b32)
  | .encB64 => buildEnc (charset .b64)
  | .encB36 => buildEnc (charset .b36)
  | .decB16 => buildDec (charset .b16)
  | .decB32 => buildDec (charset .b32)
  | .decB64 => buildDec (charset .b64)
  | .decB36 => buildDec (charset .b36)

/-- `MemRead(space, index, 1)` (R10, R72). Every rule reads inside the table (R72, R162); the entry beyond its end,
which no rule reads, is given as INVALID (log entry 8). -/
def memRead (space : TableSpace) (index : Nat) : Byte := (tableContents space).getD index invalidEntry

/-- The encode table of a table codec (R72); Base85 has none. -/
def encSpace : Codec → Option TableSpace
  | .b16 => some .encB16
  | .b32 => some .encB32
  | .b64 => some .encB64
  | .b85 => none
  | .b36 => some .encB36

/-- The decode table of a table codec (R72); Base85 has none. -/
def decSpace : Codec → Option TableSpace
  | .b16 => some .decB16
  | .b32 => some .decB32
  | .b64 => some .decB64
  | .b85 => none
  | .b36 => some .decB36

end Sys2Proof.Machine
end

