-- ==== Sys2Proof/Machine/Engine.lean ====
section
/-! DEFINITION. The block engine common to all codecs (spec/41): the codec constants, the packers, slicers, unpackers
and fills as functions on natural numbers (R8, R150 to R162), and the definitions the padding validator uses (R164,
R166). -/

namespace Sys2Proof.Machine

open Sys2Proof Sys2Proof.Config

/-- R: the radix of a codec (R150). -/
def radix : Codec → Nat
  | .b16 => 16
  | .b32 => 32
  | .b64 => 64
  | .b85 => 85
  | .b36 => 36

/-- b: the bits per digit of a bit-field codec (R150); a radix codec has none. -/
def digitBits : Codec → Nat
  | .b16 => 4
  | .b32 => 5
  | .b64 => 6
  | .b85 => 0
  | .b36 => 0

/-- N: the block size in bytes, InputUnitSize (R150). -/
def blockBytes : Codec → Nat
  | .b16 => 1
  | .b32 => 5
  | .b64 => 3
  | .b85 => 4
  | .b36 => 4

/-- M: the block size in symbols, OutputUnitSize (R150); for Base36 it is the parameter `B36_M`. -/
def blockSyms (p : Params) : Codec → Nat
  | .b16 => 2
  | .b32 => 8
  | .b64 => 4
  | .b85 => 5
  | .b36 => p.b36m.count

/-- M of a bit-field codec, which no parameter changes: the digits of a full block, N * 8 / b (R150). -/
def bitSyms (c : Codec) : Nat := blockSyms Params.default c

/-- Has the codec a padding symbol (R150)? -/
def padded : Codec → Bool
  | .b16 => false
  | .b32 => true
  | .b64 => true
  | .b85 => false
  | .b36 => false

/-- `S(k) = ceil(8k / b)`: the significant digits of k bytes in a bit-field codec (R151). -/
def sigDigits (c : Codec) (k : Nat) : Nat := (8 * k + digitBits c - 1) / digitBits c

/-- `SIG`: the legal significant-digit counts of a short block of a padded codec (R151). -/
def sigSet (c : Codec) : List Nat := (List.range' 1 (blockBytes c - 1)).map (sigDigits c)

/-- `K(g)`: the k with `S(k) = g` (R151); 0 where there is none, which no reachable state asks for. -/
def sigBytes (c : Codec) (g : Nat) : Nat :=
  ((List.range' 1 (blockBytes c)).find? (fun k => sigDigits c k == g)).getD 0

/-- `n(k)`: the symbols of a short block of k bytes in a radix codec of radix `r` and M symbols, the least n with
`R^(M - n) <= 2^(8(4 - k))` (R152). -/
def shortSyms (r m k : Nat) : Nat :=
  ((List.range (m + 1)).find? (fun n => decide (r ^ (m - n) ≤ 2 ^ (8 * (4 - k))))).getD m

/-- `GSET`: the legal short-final-group sizes of a radix codec (R152). -/
def groupSet (r m : Nat) : List Nat := (List.range' 1 3).map (shortSyms r m)

/-- `Kr(g)`: the k with `n(k) = g` (R152); 0 where there is none. -/
def groupBytes (r m g : Nat) : Nat :=
  ((List.range' 1 4).find? (fun k => shortSyms r m k == g)).getD 0

/-- `Pack8(acc, u) = (acc << 8) | u` (R153). -/
def pack8 (acc : Nat) (u : Byte) : Nat := (acc <<< 8) ||| u.toNat

/-- `LeftJustify(acc, k) = acc << (8 * (N - k))` (R153). -/
def leftJustify (n acc k : Nat) : Nat := acc <<< (8 * (n - k))

/-- `BitDigit(v, i) = (v >> (b * (M - 1 - i))) & (2^b - 1)` (R154). -/
def bitDigit (b m v i : Nat) : Nat := (v >>> (b * (m - 1 - i))) &&& (2 ^ b - 1)

/-- `RadixDigit(v, i) = (v div R^(M - 1 - i)) mod R` (R155). -/
def radixDigit (r m v i : Nat) : Nat := (v / r ^ (m - 1 - i)) % r

/-- `PackDigit(acc, d) = (acc << b) | d` (R158). -/
def packDigit (b acc d : Nat) : Nat := (acc <<< b) ||| d

/-- `PackRadix(acc, d) = acc * R + d` (R158). -/
def packRadix (r acc d : Nat) : Nat := acc * r + d

/-- `ByteOf(v, j) = (v >> (8 * (N - 1 - j))) & 0xFF` (R159). -/
def byteOf (n v j : Nat) : Byte := BitVec.ofNat 8 ((v >>> (8 * (n - 1 - j))) &&& 0xFF)

/-- The left justification of a short bit-field block of g symbols, `acc << (b * (M - g))` (R159). -/
def justifySyms (b m acc g : Nat) : Nat := acc <<< (b * (m - g))

/-- `RadixFill(acc, g) = acc * R^(M - g) + (R^(M - g) - 1)` (R160). -/
def radixFill (r m acc g : Nat) : Nat := acc * r ^ (m - g) + (r ^ (m - g) - 1)

/-- The first `k` bytes of an 8N-bit block value (R159; R161 with N = 4). -/
def blockBytesOf (n v k : Nat) : List Byte := (List.range k).map (byteOf n v)

/-- The largest value a radix group may have, 2^32 - 1 (R161). -/
def groupMax : Nat := 0xFFFFFFFF

/-- Does a group value raise under the policy (R161)? Only above 2^32 - 1 and under OVF_POLICY = ERROR. -/
def overflows (p : Params) (v : Nat) : Bool := decide (groupMax < v) && p.ovf == .error

/-- The symbol of a digit: the encode table's entry, or for Base85 the code `d + 0x21` (R130, R139). -/
def symbolOf (c : Codec) (d : Nat) : Byte :=
  match encSpace c with
  | some space => memRead space d
  | none => BitVec.ofNat 8 (d + 0x21)

/-- The symbol `'='` of a padded codec, `EncTab_c[R]` (R132, R150). -/
def padSymbol (c : Codec) : Byte := symbolOf c (radix c)

/-- The symbols of the first `k` digits of a bit-field block value (R154). -/
def bitSymbols (c : Codec) (v k : Nat) : List Byte :=
  (List.range k).map fun i => symbolOf c (bitDigit (digitBits c) (bitSyms c) v i)

/-- The symbols of the first `k` of the `m` digits of a radix block value (R155). -/
def radixSymbols (c : Codec) (m v k : Nat) : List Byte :=
  (List.range k).map fun i => symbolOf c (radixDigit (radix c) m v i)

/-- `'z'`, the fold symbol of Base85 (R260). -/
def foldSymbol : Byte := 0x7A#8

end Sys2Proof.Machine
end

