-- ==== Sys2Proof/Machine/Operands.lean ====
section
/-! DEFINITION. What an operand stands for (R102): the classification of a PUSH operand as a symbol (R139, R140) and the
length check's use of LEN28 (R321). In encode modes UNIT is a byte and is used as it is. -/

namespace Sys2Proof.Machine

open Sys2Proof

/-- The class of a symbol (R140). -/
inductive SymClass where
  | invalid
  | pad
  | digit (d : Nat)
deriving DecidableEq, Repr

/-- `Class_c(s)` for a codec with a decode table (R140); s >= 0x80 is tested before the table is read. -/
def classOfEntry (c : Codec) (space : TableSpace) (s : Byte) : SymClass :=
  if 0x80 ≤ s.toNat then .invalid
  else if memRead space s.toNat = invalidEntry then .invalid
  else if padded c && (memRead space s.toNat).toNat == radix c then .pad
  else .digit (memRead space s.toNat).toNat

/-- The class of a Base85 symbol other than `'z'`: the digit `s - 0x21` when 0x21 <= s <= 0x75 (R139). -/
def classOfAscii (s : Byte) : SymClass :=
  if s.toNat < 0x21 ∨ 0x75 < s.toNat then .invalid else .digit (s.toNat - 0x21)

/-- The class of a symbol in a codec (R139, R140). -/
def classOf (c : Codec) (s : Byte) : SymClass :=
  match decSpace c with
  | some space => classOfEntry c space s
  | none => classOfAscii s

/-- The codecs whose decode length LCHK checks (R321, conflict C8). -/
def lengthChecked : Codec → Bool
  | .b16 => true
  | .b32 => true
  | .b64 => true
  | .b85 => false
  | .b36 => false

/-- R321: does LCHK of this length raise BadLength in this configuration? -/
def badArrayLength (c : Cfg) (len28 : BitVec 28) : Bool :=
  c.dir == .dec && lengthChecked c.codec && !c.optpad && len28.toNat % bitSyms c.codec != 0

end Sys2Proof.Machine
end

