-- ==== Sys2Proof/Machine/Ops.lean ====
section
/-! DEFINITION. The operations the command rules share: emitting, consuming, holding and completing a block (R156, R163),
the error latch and what leaves it (R404, R405, R411), and running a command rule as one transaction (R11, R336). -/

namespace Sys2Proof.Machine

open Sys2Proof Sys2Proof.Config

/-- `Emit(u)`: append to the FIFO's tail and count (R156). -/
def State.emit (s : State) (u : Byte) : State :=
  { s with fifo := s.fifo ++ [u], outCnt := s.outCnt + 1 }

/-- `Emit` for each unit of a list in order. -/
def State.emitAll (s : State) (us : List Byte) : State := us.foldl State.emit s

/-- `OFFSET <- (OFFSET + 1) mod 2^32`: one input unit is consumed (R36). -/
def State.consume (s : State) : State := { s with offset := s.offset + 1 }

/-- `ACC <- acc; BLK <- k`: the block goes on. Values of reachable states fit the registers (R8, R162). -/
def State.hold (s : State) (acc k : Nat) : State :=
  { s with acc := BitVec.ofNat 64 acc, blk := BitVec.ofNat 4 k }

/-- Block completion: `ACC <- 0`, `BLK <- 0`, `PADCNT <- 0` (R163). -/
def State.closeBlock (s : State) : State := { s with acc := 0, blk := 0, padCnt := 0 }

/-- `PHASE <- DONE` (R323). -/
def State.finish (s : State) : State := { s with phase := .done }

/-- `FIFO <- empty` and every per-operation register cleared, the common part of CFG and ABORT (R320, R324). -/
def State.clearOperation (s : State) : State :=
  { s with
    cause := .none, errOff := 0, offset := 0, outCnt := 0, acc := 0, blk := 0, padCnt := 0, padOff := 0,
    closed := false, fifo := [] }

/-- What a rule raises: `raise K(off)` (R10, R404). -/
structure Raise where
  cause : Cause
  off : Word
deriving DecidableEq, Repr

/-- The error latch, the whole of this block's trap entry (R404): PHASE, CAUSE and ERROFF are written and nothing
else. -/
def State.latch (s : State) (r : Raise) : State :=
  { s with phase := .error, cause := r.cause, errOff := r.off }

/-- A command as a transaction (R11): the new state, or the latch over the state the command began in. -/
def commit (s : State) (r : Except Raise State) : StepOutcome :=
  match r with
  | .ok s' => .next s'
  | .error e => .next (s.latch e)

/-- A command other than CFG and ABORT: ignored while PHASE = ERROR, else run as a transaction (R336, R405). -/
def runUnlessError (s : State) (r : Except Raise State) : StepOutcome :=
  if s.phase = .error then .next s else commit s r

/-- The checks of PUSH and END before their mode rule: SEQUENCE outside ACTIVE, then OVERRUN when not READY (R322,
R323, R408). -/
def admitted (s : State) (r : Except Raise State) : Except Raise State :=
  if s.phase ≠ .active then .error ⟨.sequence, s.offset⟩
  else if s.ready then r
  else .error ⟨.overrun, s.offset⟩

/-- CFG, one of the two ways out of ERROR (R320, R411): start an operation in the configuration `c`. -/
def State.configure (s : State) (c : Cfg) : State :=
  { s.clearOperation with cfgr := c, phase := .active }

/-- ABORT, the other way out of ERROR (R324, R411): go idle, CFGR unchanged. -/
def State.goIdle (s : State) : State := { s.clearOperation with phase := .idle }

/-- An illegal word (R336, R401, R405): ignored while PHASE = ERROR, else ILLEGAL_COMMAND with ERROFF <- OFFSET. -/
def execIllegal (s : State) : StepOutcome :=
  runUnlessError s (.error ⟨.illegalCommand, s.offset⟩)

/-- Reset of the instance (R450, R452): every register as after reset. What the hardware is (its parameters, its host
agent) and what the host has sent and read stay. -/
def State.resetInstance (s : State) : State :=
  { State.resetWith s.params s.owner with events := s.events, replies := s.replies }

end Sys2Proof.Machine
end

