-- ==== Sys2Proof/Machine/Base16.lean ====
section
/-! DEFINITION. Base16 (spec/42): modes B16.ENC and B16.DEC. -/

namespace Sys2Proof.Machine

open Sys2Proof Sys2Proof.Config

/-- PUSH in B16.ENC (R180): one byte, two digits; the block completes within the command. -/
def pushB16Enc (u : Byte) (s : State) : Except Raise State :=
  .ok (s.emitAll (bitSymbols .b16 (pack8 0 u) 2)).consume

/-- END in B16.ENC (R181). -/
def endB16Enc (s : State) : Except Raise State := .ok s.finish

/-- The writes of a B16.DEC PUSH of the digit `d` (R182): the first symbol of a pair is kept, the second emits the
byte. -/
def acceptHex (d : Nat) (s : State) : State :=
  if s.blk.toNat = 0 then (s.hold d 1).consume
  else (s.emitAll [byteOf 1 (packDigit 4 s.acc.toNat d) 0]).closeBlock.consume

/-- PUSH in B16.DEC (R182). Base16 has no padding symbol, so no symbol is of class `pad`. -/
def pushB16Dec (u : Byte) (s : State) : Except Raise State :=
  match classOf .b16 u with
  | .digit d => .ok (acceptHex d s)
  | .invalid => .error ⟨.badCharacter, s.offset⟩
  | .pad => .error ⟨.badCharacter, s.offset⟩

/-- END in B16.DEC (R183): BadLength after an odd number of symbols. -/
def endB16Dec (s : State) : Except Raise State :=
  if s.blk.toNat = 1 then .error ⟨.badLength, s.offset⟩ else .ok s.finish

end Sys2Proof.Machine
end

