-- ==== Sys2Proof/Machine/Padded.lean ====
section
/-! DEFINITION. The rules Base32 and Base64 share, "Same structural pattern as Base32 at different unit sizes" (spec/44),
over the codec's constants: R202 and R232 (PUSH, encode), R203 and R233 (END, encode), R204 and R234 (PUSH, decode),
R205 and R235 (END, decode). All checks come before all writes (R11). -/

namespace Sys2Proof.Machine

open Sys2Proof Sys2Proof.Config

/-- PUSH in an encode mode (R202, R232): add one byte; a full block emits its M digits. -/
def pushPaddedEnc (c : Codec) (u : Byte) (s : State) : Except Raise State :=
  let acc := pack8 s.acc.toNat u
  let k := s.blk.toNat + 1
  if k < blockBytes c then .ok (s.hold acc k).consume
  else .ok ((s.emitAll (bitSymbols c acc (bitSyms c))).closeBlock.consume)

/-- The symbols of a short final block of k bytes: S(k) digits, then padding up to M symbols (R203, R233). -/
def paddedTail (c : Codec) (acc k : Nat) : List Byte :=
  bitSymbols c (leftJustify (blockBytes c) acc k) (sigDigits c k)
    ++ List.replicate (bitSyms c - sigDigits c k) (padSymbol c)

/-- END in an encode mode (R203, R233): flush the short final block; full padding whatever OPTPAD says. -/
def endPaddedEnc (c : Codec) (s : State) : Except Raise State :=
  let k := s.blk.toNat
  if 0 < k then .ok ((s.emitAll (paddedTail c s.acc.toNat k)).closeBlock.finish)
  else .ok s.finish

/-- The close of a block that held `padcnt` padding symbols: such a block ends the input (R165, R204, R234). -/
def State.closeInput (s : State) (padcnt : Nat) (padoff : Word) : State :=
  if 0 < padcnt then { s with closed := true, padOff := padoff } else s

/-- The writes of a decode PUSH that no check rejected (R204, R234): the block goes on, or it completes with
`acc` holding 8N bits of which K(M - padcnt) bytes are data. -/
def acceptSymbol (c : Codec) (acc padcnt : Nat) (padoff : Word) (s : State) : State :=
  let p := s.blk.toNat
  if p + 1 < bitSyms c then
    { s.hold acc (p + 1) with padCnt := BitVec.ofNat 3 padcnt, padOff := padoff }.consume
  else
    ((s.emitAll (blockBytesOf (blockBytes c) acc (sigBytes c (bitSyms c - padcnt)))).closeInput padcnt
      padoff).closeBlock.consume

/-- PUSH in a decode mode (R204, R234): the checks in the order of R408, then the writes. -/
def pushPaddedDec (c : Codec) (u : Byte) (s : State) : Except Raise State :=
  if s.closed then .error ⟨.badCharacter, s.padOff⟩
  else
    match classOf c u with
    | .invalid => .error ⟨.badCharacter, s.offset⟩
    | .pad =>
      if s.padCnt = 0 ∧ s.blk.toNat ∉ sigSet c then .error ⟨.badCharacter, s.offset⟩
      else
        .ok (acceptSymbol c (packDigit (digitBits c) s.acc.toNat 0) (s.padCnt.toNat + 1)
          (if s.padCnt = 0 then s.offset else s.padOff) s)
    | .digit d =>
      if s.padCnt ≠ 0 then .error ⟨.badCharacter, s.offset⟩
      else .ok (acceptSymbol c (packDigit (digitBits c) s.acc.toNat d) s.padCnt.toNat s.padOff s)

/-- `LegalShort(g)` of the partial block left at END (R166). -/
def State.legalShort (s : State) (c : Codec) : Bool :=
  s.cfgr.optpad && s.padCnt == 0 && decide (s.blk.toNat ∈ sigSet c)

/-- END in a decode mode (R205, R235): nothing left, a legal short block, or BadLength. -/
def endPaddedDec (c : Codec) (s : State) : Except Raise State :=
  let g := s.blk.toNat
  if g = 0 then .ok s.finish
  else if s.legalShort c then
    .ok ((s.emitAll (blockBytesOf (blockBytes c) (justifySyms (digitBits c) (bitSyms c) s.acc.toNat g)
      (sigBytes c g))).closeBlock.finish)
  else .error ⟨.badLength, s.offset⟩

end Sys2Proof.Machine
end

