-- ==== Sys2Proof/Machine/Base32.lean ====
section
/-! DEFINITION. Base32 (spec/43): modes B32.ENC and B32.DEC, over the rules of Padded.lean. -/

namespace Sys2Proof.Machine

open Sys2Proof

/-- PUSH in B32.ENC (R202). -/
def pushB32Enc (u : Byte) (s : State) : Except Raise State := pushPaddedEnc .b32 u s

/-- END in B32.ENC (R203). -/
def endB32Enc (s : State) : Except Raise State := endPaddedEnc .b32 s

/-- PUSH in B32.DEC (R204). -/
def pushB32Dec (u : Byte) (s : State) : Except Raise State := pushPaddedDec .b32 u s

/-- END in B32.DEC (R205). -/
def endB32Dec (s : State) : Except Raise State := endPaddedDec .b32 s

end Sys2Proof.Machine
end

