-- ==== Sys2Proof/Machine/Radix.lean ====
section
/-! DEFINITION. The rules Base85 and Base36 share: "The Base36 codec is the Base85 codec of 45_base85.md with radix 36,
the table alphabet 0-9A-Z in place of ASCII arithmetic, M = B36_M symbols per 4-byte block, fill digit 35, and no fold"
(R290). R261 and R291 (PUSH, encode), R262 and R292 (END, encode), R264 and R293 (PUSH, decode), R265 and R294 (END,
decode); the fold itself is in Base85.lean. All checks come before all writes (R11). -/

namespace Sys2Proof.Machine

open Sys2Proof Sys2Proof.Config

/-- PUSH in an encode mode (R261, R291): add one byte; a full block with accumulator `acc` emits `full acc`. -/
def pushRadixEnc (c : Codec) (full : Nat → List Byte) (u : Byte) (s : State) : Except Raise State :=
  let acc := pack8 s.acc.toNat u
  let k := s.blk.toNat + 1
  if k < blockBytes c then .ok (s.hold acc k).consume
  else .ok ((s.emitAll (full acc)).closeBlock.consume)

/-- END in an encode mode (R262, R292): the first n(k) digits of the left-justified short block. -/
def endRadixEnc (c : Codec) (s : State) : Except Raise State :=
  let k := s.blk.toNat
  let m := blockSyms s.params c
  if 0 < k then
    .ok ((s.emitAll (radixSymbols c m (leftJustify (blockBytes c) s.acc.toNat k)
      (shortSyms (radix c) m k))).closeBlock.finish)
  else .ok s.finish

/-- A decode PUSH of the digit `d` (R264, R293): the group goes on, or it completes, is checked for range (R161) and
emits its 4 bytes. -/
def pushRadixDigit (c : Codec) (d : Nat) (s : State) : Except Raise State :=
  let acc := packRadix (radix c) s.acc.toNat d
  let g := s.blk.toNat + 1
  if g < blockSyms s.params c then .ok (s.hold acc g).consume
  else if overflows s.params acc then .error ⟨.badCharacter, s.offset⟩
  else .ok ((s.emitAll (blockBytesOf 4 (acc % 2 ^ 32) 4)).closeBlock.consume)

/-- A decode PUSH of a symbol other than the fold (R264, R293). -/
def pushRadixDec (c : Codec) (u : Byte) (s : State) : Except Raise State :=
  match classOf c u with
  | .digit d => pushRadixDigit c d s
  | .invalid => .error ⟨.badCharacter, s.offset⟩
  | .pad => .error ⟨.badCharacter, s.offset⟩

/-- END in a decode mode (R265, R294): nothing left; a group size outside GSET is BadLength; else the group is filled,
checked for range and its Kr(g) bytes are emitted. BadLength comes before the overflow check (R408). -/
def endRadixDec (c : Codec) (s : State) : Except Raise State :=
  let g := s.blk.toNat
  let m := blockSyms s.params c
  let v := radixFill (radix c) m s.acc.toNat g
  if g = 0 then .ok s.finish
  else if g ∉ groupSet (radix c) m then .error ⟨.badLength, s.offset⟩
  else if overflows s.params v then .error ⟨.badCharacter, s.offset - 1⟩
  else
    .ok ((s.emitAll (blockBytesOf 4 (v % 2 ^ 32) (groupBytes (radix c) m g))).closeBlock.finish)

end Sys2Proof.Machine
end

