-- ==== Sys2Proof/Machine/Base36.lean ====
section
/-! DEFINITION. Base36 (spec/46): modes B36.ENC and B36.DEC, over the rules of Radix.lean, M = `B36_M`. -/

namespace Sys2Proof.Machine

open Sys2Proof

/-- PUSH in B36.ENC (R291): a full block emits its M digits; there is no fold (R290). -/
def pushB36Enc (u : Byte) (s : State) : Except Raise State :=
  pushRadixEnc .b36 (fun acc => radixSymbols .b36 s.params.b36m.count acc s.params.b36m.count) u s

/-- END in B36.ENC (R292). -/
def endB36Enc (s : State) : Except Raise State := endRadixEnc .b36 s

/-- PUSH in B36.DEC (R293). -/
def pushB36Dec (u : Byte) (s : State) : Except Raise State := pushRadixDec .b36 u s

/-- END in B36.DEC (R294). -/
def endB36Dec (s : State) : Except Raise State := endRadixDec .b36 s

end Sys2Proof.Machine
end

