-- ==== Sys2Proof/Machine/Base64.lean ====
section
/-! DEFINITION. Base64 (spec/44): modes B64.ENC and B64.DEC, over the rules of Padded.lean. -/

namespace Sys2Proof.Machine

open Sys2Proof

/-- PUSH in B64.ENC (R232). -/
def pushB64Enc (u : Byte) (s : State) : Except Raise State := pushPaddedEnc .b64 u s

/-- END in B64.ENC (R233). -/
def endB64Enc (s : State) : Except Raise State := endPaddedEnc .b64 s

/-- PUSH in B64.DEC (R234). -/
def pushB64Dec (u : Byte) (s : State) : Except Raise State := pushPaddedDec .b64 u s

/-- END in B64.DEC (R235). -/
def endB64Dec (s : State) : Except Raise State := endPaddedDec .b64 s

end Sys2Proof.Machine
end

