-- ==== Sys2Proof/Machine/Base85.lean ====
section
/-! DEFINITION. Base85 (spec/45): modes B85.ENC and B85.DEC, over the rules of Radix.lean, with the zero fold (R260). -/

namespace Sys2Proof.Machine

open Sys2Proof

/-- The symbols of a full block of value `acc`: `'z'` for 0 with FOLDZ = 1, else the five digits (R260, R261). -/
def fullB85 (foldz : Bool) (acc : Nat) : List Byte :=
  if foldz ∧ acc = 0 then [foldSymbol] else radixSymbols .b85 5 acc 5

/-- PUSH in B85.ENC (R261). -/
def pushB85Enc (u : Byte) (s : State) : Except Raise State := pushRadixEnc .b85 (fullB85 s.cfgr.foldz) u s

/-- END in B85.ENC (R262); a short final block is never folded (R260). -/
def endB85Enc (s : State) : Except Raise State := endRadixEnc .b85 s

/-- PUSH in B85.DEC (R264): `'z'` first, legal only with FOLDZ = 1 at a group boundary, then the digits. -/
def pushB85Dec (u : Byte) (s : State) : Except Raise State :=
  if u = foldSymbol then
    if s.cfgr.foldz ∧ s.blk = 0 then .ok (s.emitAll (List.replicate 4 0)).consume
    else .error ⟨.badCharacter, s.offset⟩
  else pushRadixDec .b85 u s

/-- END in B85.DEC (R265). -/
def endB85Dec (s : State) : Except Raise State := endRadixDec .b85 s

end Sys2Proof.Machine
end

