-- ==== Sys2Proof/Machine/Drive.lean ====
section
/-! DEFINITION. The commands (spec/47): the meaning of each row of the opcode table. CFG (R320) and ABORT (R324) run in
every phase; LCHK (R321), PUSH (R322) and END (R323) are ignored while PHASE = ERROR (R336, R405), and PUSH and END run
the rule of the mode in force (R325). -/

namespace Sys2Proof.Machine

open Sys2Proof Sys2Proof.Config

/-- CFG b16, enc (R320). -/
def execCfgB16Enc (s : State) : StepOutcome := .next (s.configure ⟨.b16, .enc, false, false⟩)

/-- CFG b16, dec (R320). -/
def execCfgB16Dec (s : State) : StepOutcome := .next (s.configure ⟨.b16, .dec, false, false⟩)

/-- CFG b32, enc (R320). -/
def execCfgB32Enc (s : State) : StepOutcome := .next (s.configure ⟨.b32, .enc, false, false⟩)

/-- CFG b32, enc, optpad (R320); OPTPAD has no effect on encode (R104). -/
def execCfgB32EncOptpad (s : State) : StepOutcome := .next (s.configure ⟨.b32, .enc, true, false⟩)

/-- CFG b32, dec (R320). -/
def execCfgB32Dec (s : State) : StepOutcome := .next (s.configure ⟨.b32, .dec, false, false⟩)

/-- CFG b32, dec, optpad (R320). -/
def execCfgB32DecOptpad (s : State) : StepOutcome := .next (s.configure ⟨.b32, .dec, true, false⟩)

/-- CFG b64, enc (R320). -/
def execCfgB64Enc (s : State) : StepOutcome := .next (s.configure ⟨.b64, .enc, false, false⟩)

/-- CFG b64, enc, optpad (R320); OPTPAD has no effect on encode (R104). -/
def execCfgB64EncOptpad (s : State) : StepOutcome := .next (s.configure ⟨.b64, .enc, true, false⟩)

/-- CFG b64, dec (R320). -/
def execCfgB64Dec (s : State) : StepOutcome := .next (s.configure ⟨.b64, .dec, false, false⟩)

/-- CFG b64, dec, optpad (R320). -/
def execCfgB64DecOptpad (s : State) : StepOutcome := .next (s.configure ⟨.b64, .dec, true, false⟩)

/-- CFG b85, enc (R320). -/
def execCfgB85Enc (s : State) : StepOutcome := .next (s.configure ⟨.b85, .enc, false, false⟩)

/-- CFG b85, enc, foldz (R320). -/
def execCfgB85EncFoldz (s : State) : StepOutcome := .next (s.configure ⟨.b85, .enc, false, true⟩)

/-- CFG b85, dec (R320). -/
def execCfgB85Dec (s : State) : StepOutcome := .next (s.configure ⟨.b85, .dec, false, false⟩)

/-- CFG b85, dec, foldz (R320). -/
def execCfgB85DecFoldz (s : State) : StepOutcome := .next (s.configure ⟨.b85, .dec, false, true⟩)

/-- CFG b36, enc (R320). -/
def execCfgB36Enc (s : State) : StepOutcome := .next (s.configure ⟨.b36, .enc, false, false⟩)

/-- CFG b36, dec (R320). -/
def execCfgB36Dec (s : State) : StepOutcome := .next (s.configure ⟨.b36, .dec, false, false⟩)

/-- The rule of LCHK (R321): SEQUENCE outside ACTIVE or after a unit, BadLength(0), or no change. -/
def lengthCheck (len28 : BitVec 28) (s : State) : Except Raise State :=
  if s.phase ≠ .active ∨ s.offset ≠ 0 then .error ⟨.sequence, s.offset⟩
  else if badArrayLength s.cfgr len28 then .error ⟨.badLength, 0⟩
  else .ok s

/-- LCHK (R321). -/
def execLchk (len28 : BitVec 28) (s : State) : StepOutcome := runUnlessError s (lengthCheck len28 s)

/-- The PUSH rule of the mode in force (R325). -/
def pushRule (u : Byte) (s : State) : Except Raise State :=
  match s.cfgr.codec, s.cfgr.dir with
  | .b16, .enc => pushB16Enc u s
  | .b16, .dec => pushB16Dec u s
  | .b32, .enc => pushB32Enc u s
  | .b32, .dec => pushB32Dec u s
  | .b64, .enc => pushB64Enc u s
  | .b64, .dec => pushB64Dec u s
  | .b85, .enc => pushB85Enc u s
  | .b85, .dec => pushB85Dec u s
  | .b36, .enc => pushB36Enc u s
  | .b36, .dec => pushB36Dec u s

/-- PUSH (R322). -/
def execPush (u : Byte) (s : State) : StepOutcome := runUnlessError s (admitted s (pushRule u s))

/-- The END rule of the mode in force (R325). -/
def endRule (s : State) : Except Raise State :=
  match s.cfgr.codec, s.cfgr.dir with
  | .b16, .enc => endB16Enc s
  | .b16, .dec => endB16Dec s
  | .b32, .enc => endB32Enc s
  | .b32, .dec => endB32Dec s
  | .b64, .enc => endB64Enc s
  | .b64, .dec => endB64Dec s
  | .b85, .enc => endB85Enc s
  | .b85, .dec => endB85Dec s
  | .b36, .enc => endB36Enc s
  | .b36, .dec => endB36Dec s

/-- END (R323). -/
def execEnd (s : State) : StepOutcome := runUnlessError s (admitted s (endRule s))

/-- ABORT (R324). -/
def execAbort (s : State) : StepOutcome := .next s.goIdle

end Sys2Proof.Machine
end

