-- ==== Sys2Proof/Machine/Dispatch.lean ====
section
/-! DEFINITION. One arm per command, each one direct call of its meaning. -/

namespace Sys2Proof.Machine

open Sys2Proof

def exec (i : Instr) (s : State) : Host.Outcome State Fault Refusal :=
  match i with
  | .cfgB16Enc => Sys2Proof.Machine.execCfgB16Enc s
  | .cfgB16Dec => Sys2Proof.Machine.execCfgB16Dec s
  | .cfgB32Enc => Sys2Proof.Machine.execCfgB32Enc s
  | .cfgB32EncOptpad => Sys2Proof.Machine.execCfgB32EncOptpad s
  | .cfgB32Dec => Sys2Proof.Machine.execCfgB32Dec s
  | .cfgB32DecOptpad => Sys2Proof.Machine.execCfgB32DecOptpad s
  | .cfgB64Enc => Sys2Proof.Machine.execCfgB64Enc s
  | .cfgB64EncOptpad => Sys2Proof.Machine.execCfgB64EncOptpad s
  | .cfgB64Dec => Sys2Proof.Machine.execCfgB64Dec s
  | .cfgB64DecOptpad => Sys2Proof.Machine.execCfgB64DecOptpad s
  | .cfgB85Enc => Sys2Proof.Machine.execCfgB85Enc s
  | .cfgB85EncFoldz => Sys2Proof.Machine.execCfgB85EncFoldz s
  | .cfgB85Dec => Sys2Proof.Machine.execCfgB85Dec s
  | .cfgB85DecFoldz => Sys2Proof.Machine.execCfgB85DecFoldz s
  | .cfgB36Enc => Sys2Proof.Machine.execCfgB36Enc s
  | .cfgB36Dec => Sys2Proof.Machine.execCfgB36Dec s
  | .lchk len28 => Sys2Proof.Machine.execLchk len28 s
  | .push unit => Sys2Proof.Machine.execPush unit s
  | .endOp => Sys2Proof.Machine.execEnd s
  | .abort => Sys2Proof.Machine.execAbort s

end Sys2Proof.Machine
end

