-- ==== Sys2Proof/Machine/Window.lean ====
section
/-! DEFINITION. The register window (R71) and the host's accesses to it (R74 to R76, R80, R84): what a read returns and
does, what a write does, and the fetch of the next thing the host does. A write to CMD is handed on as a command word,
which Step.lean decodes and executes (R336). -/

namespace Sys2Proof.Machine

open Sys2Proof

/-- The window's registers (R71). -/
inductive WindowReg where
  | cmd
  | status
  | errOff
  | offset
  | outCnt
  | cfgr
  | outData
  | reserved
deriving DecidableEq, Repr

/-- The register at an offset of the window (R71): 0x1C to 0xFC are reserved. -/
def windowReg (offset : BitVec 8) : WindowReg :=
  match offset.toNat with
  | 0x00 => .cmd
  | 0x04 => .status
  | 0x08 => .errOff
  | 0x0C => .offset
  | 0x10 => .outCnt
  | 0x14 => .cfgr
  | 0x18 => .outData
  | _ => .reserved

/-- A read of OUTDATA (R46): `(1 << 8) | head` and the head removed, or 0 and no change when the FIFO is empty. -/
def readOutData (s : State) : Word × State :=
  match s.fifo with
  | [] => (0, s)
  | u :: us => ((0#23) ++ (1#1) ++ u, { s with fifo := us })

/-- A read of a register of the window: the value returned and the state after it (R71, R76). -/
def readReg (r : WindowReg) (s : State) : Word × State :=
  match r with
  | .cmd => (0, s)
  | .status => (s.status, s)
  | .errOff => (s.errOff, s)
  | .offset => (s.offset, s)
  | .outCnt => (s.outCnt, s)
  | .cfgr => (s.cfgrWord, s)
  | .outData => readOutData s
  | .reserved => (0, s)

/-- The value a read returned is the host's. -/
def State.reply (s : State) (w : Word) : State := { s with replies := s.replies ++ [w] }

/-- What the fetch of a host event gives: a command word written to CMD, to be executed, or an outcome already
settled. -/
inductive Fetched where
  | command (w : Word) (s : State)
  | settled (o : StepOutcome)
deriving Repr

/-- R75: a 32-bit access at an offset that is a multiple of 4. -/
def HostAccess.aligned (a : HostAccess) : Bool := a.bytes == 4 && a.offset.toNat % 4 == 0

/-- A host access to the window (R71, R75, R76, R80): another agent's is refused; one that is not an aligned 32-bit
access is stuck; a read returns its value; a write to CMD is a command; a write elsewhere is ignored. -/
def hostAccess (a : HostAccess) (s : State) : Fetched :=
  if a.agent ≠ s.owner then .settled (.refused .secondAgent)
  else if !a.aligned then .settled (.fault .accessStuck)
  else
    match a.kind, windowReg a.offset with
    | .read, r => .settled (.next ((readReg r s).2.reply (readReg r s).1))
    | .write w, .cmd => .command w s
    | .write _, _ => .settled (.next s)

/-- The next thing the host does to the instance, in the order it does them (R79). With nothing to do the engine holds
its state (R420). -/
def fetchEvent (s : State) : Fetched :=
  match s.events with
  | [] => .settled (.next s)
  | .reset :: es => .settled (.next { s with events := es }.resetInstance)
  | .access a :: es => hostAccess a { s with events := es }

/-- The host's write of a command word to CMD (R47). -/
def State.cmdWrite (s : State) (w : Word) : HostEvent := .access ⟨s.owner, 0, 4, .write w⟩

end Sys2Proof.Machine
end

