-- ==== Sys2Proof/Machine/Step.lean ====
section
/-! DEFINITION. One step of an instance: the next thing the host does (R79, R84). A command word is executed as R336
says; the ignoring of commands while PHASE = ERROR stands in the meanings themselves (R405). -/

namespace Sys2Proof.Machine

open Sys2Proof

/-- `Execute(w)` (R336). -/
def execWord (w : Word) (s : State) : Host.Outcome State Fault Refusal :=
  match decode w with
  | .ok i => exec i s
  | .error _ => execIllegal s

/-- One step: the host's next access or reset, complete before the next begins (R79, R336). -/
def step (s : State) : Host.Outcome State Fault Refusal :=
  match fetchEvent s with
  | .command w s' => execWord w s'
  | .settled o => o

/-- `s` with the instruction of `nbits` bits `w` where `step` takes its next one: the host's next access is the write
of that word to CMD. The block fetches nothing (R82); a command comes from the host (log entry 1). -/
def State.withFetchWord (s : State) (nbits w : Nat) : State :=
  { s with events := s.cmdWrite (BitVec.ofNat 32 (w % 2 ^ nbits)) :: s.events }

end Sys2Proof.Machine
end

