-- ==== Sys2Proof/Machine/Operation.lean ====
section
/-! DEFINITION. Operations built from commands (spec/47 section 2): array mode and streaming mode as command sequences
(R333, R334); what the host knows of its operation, from the CFG that starts it to the command that ends it, and the
result fixed there (R330 to R332, R410); the same followed over any host's accesses, and over the command words of a host
that drains the FIFO after every command (R455, discipline (b)). This is the host's side of the driving loop; the block's
side is Drive.lean, and nothing here is state of the block (log entry 17). -/

namespace Sys2Proof.Machine

open Sys2Proof Sys2Proof.Config

/-- `PUSH u(0)` ... `PUSH u(L-1)` (R108, R333). -/
def pushAll (us : List Byte) : List Instr := us.map Instr.push

/-- The LEN28 operand of a length, L modulo 2^28 (R102). -/
def lenOperand (n : Nat) : BitVec 28 := BitVec.ofNat 28 n

/-- Array mode (R333): CFG, LCHK L, the PUSH commands, END. -/
def arrayMode (cfg : Instr) (us : List Byte) : List Instr :=
  [cfg, .lchk (lenOperand us.length)] ++ pushAll us ++ [.endOp]

/-- Streaming mode (R334): the same sequence without LCHK. -/
def streamMode (cfg : Instr) (us : List Byte) : List Instr := [cfg] ++ pushAll us ++ [.endOp]

/-- The host reads OUTDATA until OUTVALID = 0 (R332, R455): the units it reads, and the FIFO empty. -/
def State.drain (s : State) : List Byte × State := (s.fifo, { s with fifo := [] })

/-- The result of an operation (R330). -/
inductive OpResult where
  /-- PHASE = DONE: the units emitted since the CFG. -/
  | units (us : List Byte)
  /-- PHASE = ERROR with CAUSE = BAD_LENGTH, and ERROFF. -/
  | badLength (off : Word)
  /-- PHASE = ERROR with CAUSE = BAD_CHARACTER, and ERROFF. -/
  | badCharacter (off : Word)
  /-- Another cause, or an operation never ended: there is no result (R330, R331). -/
  | noResult
deriving DecidableEq, Repr

/-- The result from the units emitted since the CFG and the state right after the command that ends the operation (R330,
R331); the units of an operation that ends in ERROR are discarded (R410, R458). -/
def resultOf (us : List Byte) (s : State) : OpResult :=
  match s.phase, s.cause with
  | .done, _ => .units us
  | .error, .badLength => .badLength s.errOff
  | .error, .badCharacter => .badCharacter s.errOff
  | .error, .none => .noResult
  | .error, .illegalCommand => .noResult
  | .error, .sequence => .noResult
  | .error, .overrun => .noResult
  | .idle, _ => .noResult
  | .active, _ => .noResult

/-- What the host knows of its operation. -/
inductive Progress where
  /-- No operation was started, or the last one was cancelled before its end (R332). -/
  | noOperation
  /-- The operation goes on: the units emitted since its CFG. -/
  | running (us : List Byte)
  /-- The operation ended, and its result is fixed (R331). -/
  | ended (r : OpResult)
deriving DecidableEq, Repr

/-- The result the host has: none before the end of an operation (R331). -/
def Progress.result (p : Progress) : OpResult :=
  match p with
  | .noOperation => .noResult
  | .running _ => .noResult
  | .ended r => r

/-- Cancellation: an operation in progress has no result (R332). DEDUCED: one that ended keeps the result it had, which R331
fixes at its end (log entry 17; unsafe for a claim about that result after a later ABORT or reset). -/
def Progress.cancel (p : Progress) : Progress :=
  match p with
  | .noOperation => .noOperation
  | .running _ => .noOperation
  | .ended r => .ended r

/-- The units a command adds at the FIFO's tail (R156): CFG and ABORT apart, no command removes one. -/
def emittedBy (s t : State) : List Byte := t.fifo.drop s.fifo.length

/-- A command other than CFG and ABORT that emits `new` and leaves the block in `t`: the first that leaves PHASE in DONE or
ERROR ends the operation and fixes its result; one after the end changes nothing of it (R331). -/
def Progress.advance (p : Progress) (new : List Byte) (t : State) : Progress :=
  match p with
  | .noOperation => .noOperation
  | .running us =>
    match t.phase with
    | .done => .ended (resultOf (us ++ new) t)
    | .error => .ended (resultOf (us ++ new) t)
    | .idle => .running (us ++ new)
    | .active => .running (us ++ new)
  | .ended r => .ended r

/-- What the command word `w`, taking the block from `s` to `t`, makes of the operation: a legal CFG starts another with
no unit emitted (R320, R330), whatever came before it, and ABORT cancels (R324, R332). -/
def Progress.next (p : Progress) (w : Word) (s t : State) : Progress :=
  match decode w with
  | .ok i =>
    if i.cfg?.isSome then .running []
    else if i = .abort then p.cancel
    else p.advance (emittedBy s t) t
  | .error _ => p.advance (emittedBy s t) t

/-- The host's view beside the block: a state and what the host knows of its operation. -/
abbrev WatchedOutcome := Host.Outcome (Progress × State) Fault Refusal

/-- A command word executed under the host's watch. -/
def execWatched (w : Word) (p : Progress) (s : State) : WatchedOutcome :=
  match execWord w s with
  | .next t => .next (p.next w s t, t)
  | .fault r => .fault r
  | .refused r => .refused r

/-- What an event other than a command does to the operation: a reset discards it (R452), a read or an ignored write
leaves it. -/
def Progress.settle (p : Progress) (es : List HostEvent) : Progress :=
  match es with
  | [] => p
  | .reset :: _ => p.cancel
  | .access _ :: _ => p

/-- One step of any host's events under its watch. When OUTDATA is read makes no difference to the units that count. -/
def watchStep (p : Progress) (s : State) : WatchedOutcome :=
  match fetchEvent s with
  | .command w s' => execWatched w p s'
  | .settled (.next t) => .next (p.settle s.events, t)
  | .settled (.fault r) => .fault r
  | .settled (.refused r) => .refused r

/-- `n` steps of any host's events under its watch. -/
def watch : Nat → Progress → State → WatchedOutcome
  | 0, p, s => .next (p, s)
  | n + 1, p, s =>
    match watchStep p s with
    | .next (q, t) => watch n q t
    | .fault r => .fault r
    | .refused r => .refused r

/-- Command word after command word, the host draining the FIFO after each (R455, discipline (b)). -/
def operate : List Word → Progress → State → WatchedOutcome
  | [], p, s => .next (p, s)
  | w :: ws, p, s =>
    match execWatched w p s with
    | .next (q, t) => operate ws q t.drain.2
    | .fault r => .fault r
    | .refused r => .refused r

/-- The result of the last operation that a draining host's commands start (R330, R331). -/
def resultOfRun (is : List Instr) (s : State) : OpResult :=
  match operate (is.map encode) .noOperation s with
  | .next (p, _) => p.result
  | .fault _ => .noResult
  | .refused _ => .noResult

end Sys2Proof.Machine
end

