-- ==== Sys2Proof/Machine/Asm.lean ====
section
/-! DEFINITION. The assembler (R107, R108): a line of text, its tokens, the statement they spell and the commands it
assembles to. Mnemonics are case-insensitive and `;` starts a comment. -/

namespace Sys2Proof.Machine

open Sys2Proof

/-- The options of a CFG line (R107). -/
structure AsmOpts where
  optpad : Bool
  foldz : Bool
deriving DecidableEq, Repr

/-- A statement of the assembly language (R107) or a pseudo-instruction (R108), its numbers not yet checked. -/
inductive AsmStmt where
  | empty
  | cfg (codec : Codec) (dir : Dir) (opts : AsmOpts)
  | lchk (len : Nat)
  | push (unit : Nat)
  | endStmt
  | abort
  | pushb (units : List Nat)
  | pushs (text : List Nat)
  | encode (codec : Codec) (opts : AsmOpts) (units : List Nat)
  | decode (codec : Codec) (opts : AsmOpts) (text : List Nat)
deriving DecidableEq, Repr

/-- The CFG command of a configuration; an option on a codec that does not take it is an assembly error (R107). -/
def asmCfg (codec : Codec) (dir : Dir) (opts : AsmOpts) : Option Instr :=
  cfgInstr (Cfg.fields ⟨codec, dir, opts.optpad, opts.foldz⟩)

/-- A unit operand: 0 to 255, another value is an assembly error (R107). -/
def asmUnit (n : Nat) : Option Byte := if n < 256 then some (BitVec.ofNat 8 n) else none

/-- Unit operands, each checked. -/
def asmUnits : List Nat → Option (List Byte)
  | [] => some []
  | n :: ns =>
    match asmUnit n, asmUnits ns with
    | some u, some us => some (u :: us)
    | some _, none => none
    | none, _ => none

/-- The commands a statement assembles to (R107, R108), or none for an assembly error. -/
def assemble (a : AsmStmt) : Option (List Instr) :=
  match a with
  | .empty => some []
  | .cfg codec dir opts => (asmCfg codec dir opts).map fun i => [i]
  | .lchk len => some [.lchk (lenOperand len)]
  | .push unit => (asmUnit unit).map fun u => [.push u]
  | .endStmt => some [.endOp]
  | .abort => some [.abort]
  | .pushb units => (asmUnits units).map pushAll
  | .pushs text => (asmUnits text).map pushAll
  | .encode codec opts units =>
    match asmCfg codec .enc opts, asmUnits units with
    | some i, some us => some (streamMode i us)
    | some _, none => none
    | none, _ => none
  | .decode codec opts text =>
    match asmCfg codec .dec opts, asmUnits text with
    | some i, some us => some (arrayMode i us)
    | some _, none => none
    | none, _ => none

/-- A token of a line. -/
inductive AsmTok where
  | name (cs : List Char)
  | num (n : Nat)
  | chr (n : Nat)
  | str (cs : List Nat)
  | comma
deriving DecidableEq, Repr

/-- The value of a digit character in base 16, letters in either case. -/
def hexValue (c : Char) : Option Nat :=
  if '0' ≤ c ∧ c ≤ '9' then some (c.toNat - 0x30)
  else if 'a' ≤ c ∧ c ≤ 'f' then some (c.toNat - 0x57)
  else if 'A' ≤ c ∧ c ≤ 'F' then some (c.toNat - 0x37)
  else none

/-- The numeral of a list of digits in a base, or none where a character is no digit of it. -/
def numeral (base : Nat) (cs : List Char) : Option Nat :=
  cs.foldl (fun acc c =>
    match acc, hexValue c with
    | some n, some d => if d < base then some (n * base + d) else none
    | some _, none => none
    | none, _ => none) (some 0)

/-- A number: decimal or 0x-hex (R107). -/
def asmNumber (cs : List Char) : Option Nat :=
  match cs with
  | '0' :: 'x' :: d :: ds => numeral 16 (d :: ds)
  | '0' :: 'x' :: [] => none
  | ds => numeral 10 ds

/-- A letter or a digit. -/
def isAlnum (c : Char) : Bool := c.isAlpha || c.isDigit

/-- The code of an ASCII character (R9, R107); another character is an assembly error. -/
def asciiCode (c : Char) : Option Nat := if c.toNat < 128 then some c.toNat else none

/-- The codes of a string's characters. -/
def asciiCodes : List Char → Option (List Nat)
  | [] => some []
  | c :: cs =>
    match asciiCode c, asciiCodes cs with
    | some n, some ns => some (n :: ns)
    | some _, none => none
    | none, _ => none

/-- The tokens of a line, up to the comment that `;` starts outside a quoted character or string (R107). The first
argument bounds the recursion: the line's length suffices. -/
def lexLine : Nat → List Char → Option (List AsmTok)
  | _, [] => some []
  | 0, _ :: _ => none
  | fuel + 1, c :: cs =>
    if c = ' ' ∨ c = '\t' then lexLine fuel cs
    else if c = ';' then some []
    else if c = ',' then (lexLine fuel cs).map (AsmTok.comma :: ·)
    else if c = '\'' then
      match cs with
      | q :: '\'' :: rest =>
        match asciiCode q, lexLine fuel rest with
        | some n, some ts => some (.chr n :: ts)
        | some _, none => none
        | none, _ => none
      | _ => none
    else if c = '"' then
      match cs.dropWhile (· != '"') with
      | _ :: rest =>
        match asciiCodes (cs.takeWhile (· != '"')), lexLine fuel rest with
        | some t, some ts => some (.str t :: ts)
        | some _, none => none
        | none, _ => none
      | [] => none
    else if isAlnum c then
      let w := c :: cs.takeWhile isAlnum
      let rest := cs.dropWhile isAlnum
      if c.isDigit then
        match asmNumber w, lexLine fuel rest with
        | some n, some ts => some (.num n :: ts)
        | some _, none => none
        | none, _ => none
      else (lexLine fuel rest).map (AsmTok.name (w.map Char.toLower) :: ·)
    else none

/-- A codec's name (R107). -/
def asmCodec (cs : List Char) : Option Codec :=
  match cs with
  | ['b', '1', '6'] => some .b16
  | ['b', '3', '2'] => some .b32
  | ['b', '6', '4'] => some .b64
  | ['b', '8', '5'] => some .b85
  | ['b', '3', '6'] => some .b36
  | _ => none

/-- A direction's name (R107). -/
def asmDir (cs : List Char) : Option Dir :=
  match cs with
  | ['e', 'n', 'c'] => some .enc
  | ['d', 'e', 'c'] => some .dec
  | _ => none

/-- `[, optpad] [, foldz]` and the tokens after it (R107). -/
def parseOpts (ts : List AsmTok) : AsmOpts × List AsmTok :=
  match ts with
  | .comma :: .name ['o', 'p', 't', 'p', 'a', 'd'] :: .comma :: .name ['f', 'o', 'l', 'd', 'z'] :: rest =>
    (⟨true, true⟩, rest)
  | .comma :: .name ['o', 'p', 't', 'p', 'a', 'd'] :: rest => (⟨true, false⟩, rest)
  | .comma :: .name ['f', 'o', 'l', 'd', 'z'] :: rest => (⟨false, true⟩, rest)
  | rest => (⟨false, false⟩, rest)

/-- `, b0, ..., bn` (R108): units, each after a comma; an empty list is allowed. -/
def parseNums : List AsmTok → Option (List Nat)
  | [] => some []
  | .comma :: .num n :: rest => (parseNums rest).map (n :: ·)
  | .comma :: .chr n :: rest => (parseNums rest).map (n :: ·)
  | _ => none

/-- The statement the tokens of a line spell (R107, R108). -/
def parseLine (ts : List AsmTok) : Option AsmStmt :=
  match ts with
  | [] => some .empty
  | .name ['c', 'f', 'g'] :: .name k :: .comma :: .name d :: rest =>
    match asmCodec k, asmDir d, parseOpts rest with
    | some codec, some dir, (opts, []) => some (.cfg codec dir opts)
    | _, _, _ => none
  | [.name ['l', 'c', 'h', 'k'], .num n] => some (.lchk n)
  | [.name ['p', 'u', 's', 'h'], .num n] => some (.push n)
  | [.name ['p', 'u', 's', 'h'], .chr n] => some (.push n)
  | [.name ['e', 'n', 'd']] => some .endStmt
  | [.name ['a', 'b', 'o', 'r', 't']] => some .abort
  | .name ['p', 'u', 's', 'h', 'b'] :: .num n :: rest => (parseNums rest).map fun ns => .pushb (n :: ns)
  | .name ['p', 'u', 's', 'h', 'b'] :: .chr n :: rest => (parseNums rest).map fun ns => .pushb (n :: ns)
  | [.name ['p', 'u', 's', 'h', 's'], .str t] => some (.pushs t)
  | .name ['e', 'n', 'c', 'o', 'd', 'e'] :: .name k :: rest =>
    match asmCodec k, parseNums (parseOpts rest).2 with
    | some codec, some ns => some (.encode codec (parseOpts rest).1 ns)
    | some _, none => none
    | none, _ => none
  | .name ['d', 'e', 'c', 'o', 'd', 'e'] :: .name k :: rest =>
    match asmCodec k, parseOpts rest with
    | some codec, (opts, [.comma, .str t]) => some (.decode codec opts t)
    | _, _ => none
  | _ => none

/-- The commands of one line of assembly text, or none for an assembly error (R107, R108). -/
def assembleLine (line : List Char) : Option (List Instr) :=
  match lexLine line.length line with
  | some ts =>
    match parseLine ts with
    | some a => assemble a
    | none => none
  | none => none

end Sys2Proof.Machine
end

