-- ==== Sys2Proof/Machine/Platform.lean ====
section
/-! DEFINITION. A platform of engine instances (R77, R79, R418): each with its own register window at its own base
address and its own copy of every register, sharing only the constant tables. `N_ENGINES` and `ENGINE_BASE`, the OPEN
parameters of R5, are the number of instances and their bases; both are arguments of everything here. -/

namespace Sys2Proof.Machine

open Sys2Proof Sys2Proof.Config

/-- One instance on a platform: its ENGINE_BASE (R70, R77) and its state. -/
structure Engine where
  base : Nat
  state : State
deriving DecidableEq, Repr

/-- The instances of a platform; there are `N_ENGINES` of them (R418). -/
structure Platform where
  engines : List Engine
deriving DecidableEq, Repr

/-- An access on the platform's bus: who makes it, to which address, how wide, and its kind. -/
structure BusAccess where
  agent : Nat
  address : Nat
  bytes : Nat
  kind : AccessKind
deriving DecidableEq, Repr

/-- The outcome of an access on the platform. -/
abbrev PlatformOutcome := Host.Outcome Platform Fault Refusal

/-- Is the address in the window of 256 bytes at this base (R70)? -/
def inWindow (base address : Nat) : Bool := decide (base ≤ address ∧ address < base + windowBytes)

/-- A platform the spec admits: at least one instance (R5), and windows that do not overlap. -/
abbrev Platform.Admitted (p : Platform) : Prop :=
  p.engines ≠ [] ∧
    p.engines.Pairwise (fun e f => e.base + windowBytes ≤ f.base ∨ f.base + windowBytes ≤ e.base)

/-- The instance whose window holds the address (R71, R77). -/
def Platform.route (p : Platform) (address : Nat) : Option Nat :=
  p.engines.findIdx? (fun e => inWindow e.base address)

/-- An instance takes a host access as its next step, before anything else it was sent (R79). -/
def Engine.deliver (e : Engine) (b : BusAccess) : StepOutcome :=
  step { e.state with
    events := .access ⟨b.agent, BitVec.ofNat 8 (b.address - e.base), b.bytes, b.kind⟩ :: e.state.events }

/-- An access on the platform: it goes to the instance whose window holds its address, and to no other (R79, R418); an
address in no window is not this hardware's (R77). -/
def Platform.access (p : Platform) (b : BusAccess) : PlatformOutcome :=
  match p.route b.address with
  | none => .fault .outsideWindows
  | some i =>
    match p.engines[i]? with
    | none => .fault .outsideWindows
    | some e =>
      match e.deliver b with
      | .next t => .next ⟨p.engines.set i { e with state := t }⟩
      | .fault f => .fault f
      | .refused r => .refused r

/-- Reset of one instance (R450, R452), which changes no other (R450). -/
def Platform.resetEngine (p : Platform) (i : Nat) : Platform :=
  ⟨p.engines.modify i (fun e => { e with state := e.state.resetInstance })⟩

end Sys2Proof.Machine
end

