-- ==== Sys2Proof/Safety.lean ====
section
/-! DEFINITION. The terms the statements use: the invariant that holds between commands (R50 and the ranges of R32 to
R43 and R162), when the drive loop admits a PUSH or an END in a mode (R322, R323), and which host accesses are
admitted (R75, R80). -/

namespace Sys2Proof

/-- CFG and ABORT, the commands that run in every phase (R326, R411). -/
def Instr.restarts (i : Instr) : Bool := i.cfg?.isSome || i == .abort

end Sys2Proof

namespace Sys2Proof.Machine

open Sys2Proof Sys2Proof.Config

/-- The number of units a block can hold between commands is below this: N in an encode mode, M in a decode mode
(R39). -/
def blockLimit (p : Params) (c : Cfg) : Nat :=
  match c.dir with
  | .enc => blockBytes c.codec
  | .dec => blockSyms p c.codec

/-- The radix of the unit a block collects: bytes in an encode mode, digits in a decode mode (R153, R158). -/
def unitRadix (c : Cfg) : Nat :=
  match c.dir with
  | .enc => 256
  | .dec => radix c.codec

/-- The FIFO holds at most OUT_DEPTH units (R43). -/
def State.FifoFits (s : State) : Prop :=
  match s.params.outDepth with
  | .units n => s.fifo.length ≤ n
  | .unbounded => True

/-- What holds between commands. -/
structure State.Inv (s : State) : Prop where
  /-- The parameters are admitted (I5). -/
  admitted : s.params.Admitted
  /-- CFGR holds a legal configuration (R32, I13). -/
  cfgrLegal : s.cfgr.legal = true
  /-- CAUSE != 0 exactly when PHASE = ERROR (R34, R50). -/
  causeIff : s.cause ≠ .none ↔ s.phase = .error
  /-- ERROFF is 0 while PHASE != ERROR (I22). -/
  errOffZero : s.phase ≠ .error → s.errOff = 0
  /-- BLK = 0 implies ACC = 0 and PADCNT = 0 (R38, R50). -/
  emptyBlock : s.blk = 0 → s.acc = 0 ∧ s.padCnt = 0
  /-- BLK is below N or M (R39). -/
  blkRange : s.blk.toNat < blockLimit s.params s.cfgr
  /-- ACC is below the radix to the power BLK (R162). -/
  accBound : s.acc.toNat < unitRadix s.cfgr ^ s.blk.toNat
  /-- CLOSED = 1 implies BLK = 0, and only in B32.DEC and B64.DEC (R42, R50). -/
  closedBlock : s.closed = true → s.blk = 0 ∧ s.cfgr.dir = .dec ∧ padded s.cfgr.codec = true
  /-- PADCNT > 0 only in B32.DEC and B64.DEC, and the first padding stands at a legal position (R40, R50, R164). -/
  padding : s.padCnt ≠ 0 → s.cfgr.dir = .dec ∧ padded s.cfgr.codec = true ∧
    s.padCnt.toNat ≤ s.blk.toNat ∧ s.blk.toNat - s.padCnt.toNat ∈ sigSet s.cfgr.codec
  /-- PHASE = IDLE implies BLK = 0, OFFSET = 0, OUTCNT = 0 and the FIFO empty (R50), and what else reset and ABORT clear:
  CLOSED = 0 and PADOFF = 0 (R324, R450). -/
  idleCleared : s.phase = .idle →
    s.blk = 0 ∧ s.offset = 0 ∧ s.outCnt = 0 ∧ s.closed = false ∧ s.fifo = [] ∧ s.padOff = 0
  /-- END completes the last block: PHASE = DONE implies BLK = 0 (R163). -/
  doneFlushed : s.phase = .done → s.blk = 0
  /-- The FIFO fits its capacity (R43). -/
  fifoFits : s.FifoFits

/-- PUSH and END reach the rule of mode (c, d): PHASE = ACTIVE, the mode is in force and STATUS.READY = 1 (R322, R323,
R325). -/
structure State.Admits (s : State) (c : Codec) (d : Dir) : Prop where
  active : s.phase = .active
  codec : s.cfgr.codec = c
  dir : s.cfgr.dir = d
  ready : s.ready = true

/-- The state with the error `cause` latched at `off` (R404), written out field by field. -/
def State.withError (s : State) (cause : Cause) (off : Word) : State :=
  { s with phase := .error, cause := cause, errOff := off }

/-- A host access the block performs: aligned, 32 bits wide, by the one host agent (R75, R80). -/
def HostAccess.Admitted (a : HostAccess) (s : State) : Prop :=
  a.agent = s.owner ∧ a.bytes = 4 ∧ a.offset.toNat % 4 = 0

/-- The host's next access. -/
def State.withAccess (s : State) (a : HostAccess) : State := { s with events := .access a :: s.events }

/-- An access of the admitted agent, 32 bits wide (R75, R80). -/
def State.ownAccess (s : State) (offset : BitVec 8) (kind : AccessKind) : HostAccess := ⟨s.owner, offset, 4, kind⟩

/-- The symbol at index `d` of a codec's charset (R130). -/
def charsetSymbol (c : Codec) (d : Nat) : Byte := (charset c).getD d 0

/-- The first `k` bytes of the 4-byte value of a radix group, the most significant first (R161). -/
def groupValueBytes (v k : Nat) : List Byte := (List.range k).map fun j => BitVec.ofNat 8 (v / 256 ^ (3 - j))

/-- The units a command adds to the FIFO's tail, seen from its two states (R156). -/
def EmitsOnly (s t : State) (us : List Byte) : Prop :=
  t.fifo = s.fifo ++ us ∧ t.outCnt = s.outCnt + BitVec.ofNat 32 us.length

end Sys2Proof.Machine
end

