-- ==== Sys2Proof/Certificates/Slice0/Obligations.lean ====
section
/-! DEFINITION. The statements for the provers. Each says, in plain arithmetic and in the charsets of R130, what a rule of
spec/ says; a next state is written as an update of the state before, so that it states the frame too: every field not
named is unchanged. `withError c o` is the state with error c latched at offset o (R404). In states that no run reaches
the numbers of a rule may not fit their register; there `BitVec.ofNat` keeps the low bits, the model's choice (log
entry 6). -/

open Sys2Proof Sys2Proof.Machine Sys2Proof.Config

/-! Encoding. -/

/-- R101, R104: decoding the word of a well-formed command gives the command back, at every operand value. -/
def Obligations.DecodeOfEncodeIsTheCommand : Prop :=
  ∀ i : Instr, i.WellFormed = true → decode (encode i) = .ok i

/-- R100, R106: a word that decodes to a command is that command's only word. -/
def Obligations.EncodeOfDecodeIsTheWord : Prop :=
  ∀ (w : Word) (i : Instr), decode w = .ok i → encode i = w

/-- R103, R104: the legal words and the command each one spells, and the condition on the fields under which a word with
OP = 0x1 is legal. -/
def Obligations.LegalWordsAndTheirCommands : Prop :=
  (∀ (w : Word) (i : Instr), decode w = .ok i ↔
    (w, i) ∈ [
      (0x10000000#32, .cfgB16Enc), (0x10000008#32, .cfgB16Dec), (0x10000001#32, .cfgB32Enc),
      (0x10000011#32, .cfgB32EncOptpad), (0x10000009#32, .cfgB32Dec), (0x10000019#32, .cfgB32DecOptpad),
      (0x10000002#32, .cfgB64Enc), (0x10000012#32, .cfgB64EncOptpad), (0x1000000A#32, .cfgB64Dec),
      (0x1000001A#32, .cfgB64DecOptpad), (0x10000003#32, .cfgB85Enc), (0x10000023#32, .cfgB85EncFoldz),
      (0x1000000B#32, .cfgB85Dec), (0x1000002B#32, .cfgB85DecFoldz), (0x10000004#32, .cfgB36Enc),
      (0x1000000C#32, .cfgB36Dec), (0x40000000#32, .endOp), (0x50000000#32, .abort)] ∨
    (∃ n : BitVec 28, w = 0x20000000#32 + n.setWidth 32 ∧ i = .lchk n) ∨
    (∃ u : Byte, w = 0x30000000#32 + u.setWidth 32 ∧ i = .push u)) ∧
  ∀ w : Word, w.extractLsb' 28 4 = 1#4 →
    ((∃ i, decode w = .ok i) ↔
      w.extractLsb' 6 22 = 0#22 ∧ (w.extractLsb' 0 3).toNat ≤ 4 ∧
        (w.getLsbD 4 = false ∨ (w.extractLsb' 0 3).toNat = 1 ∨ (w.extractLsb' 0 3).toNat = 2) ∧
        (w.getLsbD 5 = false ∨ (w.extractLsb' 0 3).toNat = 3))

/-- R105: which words are illegal, and that an illegal word raises ILLEGAL_COMMAND unless PHASE = ERROR, when it is
ignored. -/
def Obligations.IllegalWordsAndTheirEffect : Prop :=
  (∀ w : Word, (∃ r, decode w = .error r) ↔
    (w.extractLsb' 28 4).toNat = 0 ∨ 6 ≤ (w.extractLsb' 28 4).toNat ∨
    ((w.extractLsb' 28 4).toNat = 1 ∧
      w ∉ [0x10000000#32, 0x10000008#32, 0x10000001#32, 0x10000011#32, 0x10000009#32, 0x10000019#32, 0x10000002#32,
        0x10000012#32, 0x1000000A#32, 0x1000001A#32, 0x10000003#32, 0x10000023#32, 0x1000000B#32, 0x1000002B#32,
        0x10000004#32, 0x1000000C#32]) ∨
    ((w.extractLsb' 28 4).toNat = 3 ∧ w.extractLsb' 8 20 ≠ 0#20) ∨
    (((w.extractLsb' 28 4).toNat = 4 ∨ (w.extractLsb' 28 4).toNat = 5) ∧ w.extractLsb' 0 28 ≠ 0#28)) ∧
  ∀ (w : Word) (r : DecodeReject) (s : State), decode w = .error r →
    execWord w s = .next (if s.phase = .error then s else s.withError .illegalCommand s.offset)

/-- R101 to R104: words written out from the formats decode to the commands they stand for. -/
def Obligations.WrittenWordsDecode : Prop :=
  decodeTableWord 32 0b00010000000000000000000000011001 = some .cfgB32DecOptpad ∧
  decodeTableWord 32 0b00010000000000000000000000101011 = some .cfgB85DecFoldz ∧
  decodeTableWord 32 0b00100000000000000000000000000111 = some (.lchk 7) ∧
  decodeTableWord 32 0b00110000000000000000000001100110 = some (.push 0x66) ∧
  decodeTableWord 32 0b01000000000000000000000000000000 = some .endOp ∧
  decodeTableWord 32 0b01010000000000000000000000000000 = some .abort ∧
  decodeTableWord 32 0b00010000000000000000000000010000 = none

/-! Reset and the invariant. -/

/-- R450: every field after reset, the STATUS word, the first read of OUTDATA, and that reset of one instance changes no
other. -/
def Obligations.ResetValues : Prop :=
  State.reset.cfgrWord = 0 ∧ State.reset.phase = .idle ∧ State.reset.cause = .none ∧ State.reset.errOff = 0 ∧
  State.reset.offset = 0 ∧ State.reset.outCnt = 0 ∧ State.reset.acc = 0 ∧ State.reset.blk = 0 ∧
  State.reset.padCnt = 0 ∧ State.reset.padOff = 0 ∧ State.reset.closed = false ∧ State.reset.fifo = [] ∧
  State.reset.status = 0x00000020#32 ∧ readReg .outData State.reset = (0, State.reset) ∧
  ∀ (p : Platform) (i j : Nat), j ≠ i → (p.resetEngine i).engines[j]? = p.engines[j]?

/-- R450, R452: a reset at any time leaves every register of R50 as reset leaves it. That the parameters, the host agent,
the events still to come and the replies stay over it is no rule of the spec but the model's choice (log entry 12, DESIGN
CHOICE). -/
def Obligations.ResetDiscardsTheOperation : Prop :=
  ∀ (s : State) (es : List HostEvent), s.events = .reset :: es →
    step s = .next { State.reset with params := s.params, owner := s.owner, events := es, replies := s.replies }

/-- The invariant holds at reset. -/
def Obligations.ResetMeetsInvariant : Prop := State.reset.Inv

/-- Every step keeps the invariant: the relations of R50 between the registers, the ranges of BLK, PADCNT and ACC (R38,
R39, R40, R162, R164), the legal configuration (R32) and the FIFO within its capacity (R43). -/
def Obligations.StepKeepsInvariant : Prop :=
  ∀ s t : State, s.Inv → step s = .next t → t.Inv

/-! The step and the window. -/

/-- R336: a step whose next host access writes to CMD a word that decodes to a well-formed command is that command on the
state with the access taken. The list of the host's accesses is the model's own (log entry 1). -/
def Obligations.StepRunsTheWrittenCommand : Prop :=
  ∀ (s : State) (w : Word) (i : Instr) (es : List HostEvent), s.events = s.cmdWrite w :: es → decode w = .ok i →
    i.WellFormed = true → step s = exec i { s with events := es }

/-- The model's own: `withFetchWord` places a word where the next step runs it, and nothing else changes (log
entry 1). -/
def Obligations.FetchWordIsRunNext : Prop :=
  ∀ (s : State) (w : Nat) (i : Instr), decodeTableWord 32 w = some i →
    step (s.withFetchWord 32 w) = exec i s

/-- R401: a step on an illegal word outside ERROR latches ILLEGAL_COMMAND with ERROFF <- OFFSET. -/
def Obligations.IllegalWordLatches : Prop :=
  ∀ (s : State) (w : Word) (r : DecodeReject) (es : List HostEvent), s.events = s.cmdWrite w :: es →
    decode w = .error r → s.phase ≠ .error →
    step s = .next { s with events := es, phase := .error, cause := .illegalCommand, errOff := s.offset }

/-- R420: between commands the engine holds its state. That a step with nothing to do is a step that changes nothing is
the model's choice (log entry 5). -/
def Obligations.IdleStepHoldsTheState : Prop :=
  ∀ s : State, s.events = [] → step s = .next s

/-- R71: what a read of each offset returns, and that a write anywhere but CMD is ignored. -/
def Obligations.WindowMap : Prop :=
  ∀ s : State,
    step (s.withAccess (s.ownAccess 0x00 .read)) = .next { s with replies := s.replies ++ [0] } ∧
    step (s.withAccess (s.ownAccess 0x04 .read)) = .next { s with replies := s.replies ++ [s.status] } ∧
    step (s.withAccess (s.ownAccess 0x08 .read)) = .next { s with replies := s.replies ++ [s.errOff] } ∧
    step (s.withAccess (s.ownAccess 0x0C .read)) = .next { s with replies := s.replies ++ [s.offset] } ∧
    step (s.withAccess (s.ownAccess 0x10 .read)) = .next { s with replies := s.replies ++ [s.outCnt] } ∧
    step (s.withAccess (s.ownAccess 0x14 .read)) = .next { s with replies := s.replies ++ [s.cfgrWord] } ∧
    step (s.withAccess (s.ownAccess 0x18 .read)) = .next
      { s with fifo := s.fifo.tail, replies := s.replies ++ [match s.fifo with | [] => 0 | u :: _ => 0x100 + u.setWidth 32] } ∧
    (∀ o : BitVec 8, 0x1C ≤ o.toNat → o.toNat % 4 = 0 →
      step (s.withAccess (s.ownAccess o .read)) = .next { s with replies := s.replies ++ [0] }) ∧
    (∀ (o : BitVec 8) (w : Word), o ≠ 0 → o.toNat % 4 = 0 →
      step (s.withAccess (s.ownAccess o (.write w))) = .next s) ∧
    (∀ w : Word, step (s.withAccess (s.ownAccess 0 (.write w))) = execWord w s)

/-- R44: the fields of STATUS, READY's and OUTVALID's definitions, the reset value, and that reading it at 0x04 has no
side effect. -/
def Obligations.StatusFields : Prop :=
  (∀ s : State,
    (s.status.extractLsb' 0 2).toNat = (match s.phase with | .idle => 0 | .active => 1 | .done => 2 | .error => 3) ∧
    (s.status.extractLsb' 2 3).toNat = (match s.cause with
      | .none => 0 | .badLength => 1 | .badCharacter => 2 | .illegalCommand => 3 | .sequence => 4 | .overrun => 5) ∧
    (s.status.getLsbD 5 = true ↔ match s.params.outDepth with
      | .units n => (n : Int) - s.fifo.length ≥ 8
      | .unbounded => True) ∧
    (s.status.getLsbD 6 = true ↔ 0 < s.fifo.length) ∧
    s.status.extractLsb' 7 4 = s.blk ∧ s.status.extractLsb' 11 3 = s.padCnt ∧
    s.status.getLsbD 14 = s.closed ∧ s.status.extractLsb' 15 17 = 0#17 ∧
    readReg (windowReg 0x04) s = (s.status, s)) ∧
  State.reset.status = 0x00000020#32

/-- R46: a read of OUTDATA returns the valid bit and the head and removes it, or returns 0 and changes nothing. -/
def Obligations.OutDataPopsTheHead : Prop :=
  (∀ (s : State) (u : Byte) (us : List Byte), s.fifo = u :: us →
    readReg (windowReg 0x18) s = (BitVec.ofNat 32 (1 <<< 8 ||| u.toNat), { s with fifo := us })) ∧
  (∀ s : State, s.fifo = [] → readReg (windowReg 0x18) s = (0, s)) ∧
  (∀ s : State, (readReg (windowReg 0x18) s).1.extractLsb' 9 23 = 0#23) ∧
  (readReg (windowReg 0x18) State.reset).1 = 0

/-- An access that is not 32 bits wide at a multiple of 4 has no step (R75). That such a step of the host agent is the
fault accessStuck is the model's reading of "stuck" (log entry 4, DEDUCED), and that this clause is about the host agent
alone, since another agent's access is refused before its alignment is looked at (R80), is the model's choice (log entry
3, DESIGN CHOICE). -/
def Obligations.UnalignedAccessIsStuck : Prop :=
  ∀ (s : State) (a : HostAccess), (a.bytes ≠ 4 ∨ a.offset.toNat % 4 ≠ 0) →
    (∀ t, step (s.withAccess a) ≠ .next t) ∧ (a.agent = s.owner → step (s.withAccess a) = .fault .accessStuck)

/-- An access of a second host agent is refused (R80). That this is so of a misaligned access too, which R75 calls stuck,
is the model's choice: the agent is looked at before the alignment (log entry 3, DESIGN CHOICE). -/
def Obligations.SecondAgentIsRefused : Prop :=
  ∀ (s : State) (a : HostAccess), a.agent ≠ s.owner → step (s.withAccess a) = .refused .secondAgent

/-- A step stops only on a host access the block does not perform (R75, R80); every command, legal or not, has a next
state (R336, R404), and so has a reset (R452). The hypothesis holds also of a state with no event left: that its step is a
step, and has a next state, is the model's reading of R420 (log entry 5, DEDUCED). -/
def Obligations.StepStopsOnlyOnBadAccess : Prop :=
  ∀ s : State, (∀ (a : HostAccess) (es : List HostEvent), s.events = .access a :: es → a.Admitted s) →
    ∃ t, step s = .next t

/-! CFG, ABORT, LCHK and the phase machine. -/

/-- R320: each of the 16 CFG commands starts an operation in its configuration, in every phase. -/
def Obligations.CfgStartsAnOperation : Prop :=
  ∀ (s : State) (i : Instr) (c : Codec) (d : Dir) (optpad foldz : Bool),
    (i, c, d, optpad, foldz) ∈ [
      (.cfgB16Enc, .b16, .enc, false, false), (.cfgB16Dec, .b16, .dec, false, false),
      (.cfgB32Enc, .b32, .enc, false, false), (.cfgB32EncOptpad, .b32, .enc, true, false),
      (.cfgB32Dec, .b32, .dec, false, false), (.cfgB32DecOptpad, .b32, .dec, true, false),
      (.cfgB64Enc, .b64, .enc, false, false), (.cfgB64EncOptpad, .b64, .enc, true, false),
      (.cfgB64Dec, .b64, .dec, false, false), (.cfgB64DecOptpad, .b64, .dec, true, false),
      (.cfgB85Enc, .b85, .enc, false, false), (.cfgB85EncFoldz, .b85, .enc, false, true),
      (.cfgB85Dec, .b85, .dec, false, false), (.cfgB85DecFoldz, .b85, .dec, false, true),
      (.cfgB36Enc, .b36, .enc, false, false), (.cfgB36Dec, .b36, .dec, false, false)] →
    ∃ t, exec i s = .next t ∧
      t = { s with
        cfgr := ⟨c, d, optpad, foldz⟩, phase := .active, cause := .none, errOff := 0, offset := 0, outCnt := 0,
        acc := 0, blk := 0, padCnt := 0, padOff := 0, closed := false, fifo := [] } ∧
      t.cfgrWord = (0#26) ++ (encode i).extractLsb' 0 6 ∧ t.outValid = false ∧ (s.params.Admitted → t.ready = true)

/-- R324: ABORT cancels and goes idle in every phase; CFGR is unchanged and STATUS is 0x20; in IDLE nothing changes, in
every state that meets the invariant. -/
def Obligations.AbortGoesIdle : Prop :=
  ∀ s : State,
    ∃ t, exec .abort s = .next t ∧
      t = { s with
        phase := .idle, cause := .none, errOff := 0, offset := 0, outCnt := 0, acc := 0, blk := 0, padCnt := 0,
        padOff := 0, closed := false, fifo := [] } ∧
      (s.params.Admitted → t.status = 0x00000020#32) ∧
      (s.Inv → s.phase = .idle → t = s)

/-- R321: LCHK in order, by the length: no change, or BadLength(0) in B16.DEC, B32.DEC and B64.DEC without OPTPAD; out of
order, SEQUENCE. -/
def Obligations.LchkChecksTheLength : Prop :=
  ∀ (s : State) (n : BitVec 28), s.phase ≠ .error →
    exec (.lchk n) s = .next
      (if s.phase ≠ .active ∨ s.offset ≠ 0 then s.withError .sequence s.offset
      else if s.cfgr.dir = .dec ∧ s.cfgr.optpad = false ∧
          ((s.cfgr.codec = .b16 ∧ n.toNat % 2 ≠ 0) ∨ (s.cfgr.codec = .b32 ∧ n.toNat % 8 ≠ 0) ∨
            (s.cfgr.codec = .b64 ∧ n.toNat % 4 ≠ 0)) then s.withError .badLength 0
      else s)

/-- R402: the commands that raise SEQUENCE, and that ERROFF records OFFSET. -/
def Obligations.OutOfOrderCommandsRaiseSequence : Prop :=
  ∀ s : State,
    ((s.phase = .idle ∨ s.phase = .done) →
      (∀ u : Byte, exec (.push u) s = .next (s.withError .sequence s.offset)) ∧
      exec .endOp s = .next (s.withError .sequence s.offset) ∧
      (∀ n : BitVec 28, exec (.lchk n) s = .next (s.withError .sequence s.offset))) ∧
    (s.phase = .active → s.offset ≠ 0 →
      ∀ n : BitVec 28, exec (.lchk n) s = .next (s.withError .sequence s.offset))

/-- R403: PUSH and END without room for 8 units raise OVERRUN, whatever they would emit; ERROFF records OFFSET. No command
raises it when the FIFO is unbounded. -/
def Obligations.NoRoomRaisesOverrun : Prop :=
  (∀ (s : State) (n : Nat), s.phase = .active → s.params.outDepth = .units n → n < s.fifo.length + 8 →
    (∀ u : Byte, exec (.push u) s = .next (s.withError .overrun s.offset)) ∧
    exec .endOp s = .next (s.withError .overrun s.offset)) ∧
  ∀ (s t : State) (w : Word), s.params.outDepth = .unbounded → s.cause ≠ .overrun → execWord w s = .next t →
    t.cause ≠ .overrun

/-- R405: while PHASE = ERROR every word but a legal CFG and ABORT is ignored. -/
def Obligations.ErrorIgnoresEveryOtherWord : Prop :=
  ∀ (s : State) (w : Word), s.phase = .error →
    (∀ i, decode w = .ok i → i.restarts = false) → execWord w s = .next s

/-- R409, R404: a word that brings PHASE to ERROR changes PHASE, CAUSE and ERROFF and nothing else. -/
def Obligations.ErrorsArePrecise : Prop :=
  ∀ (s t : State) (w : Word), s.phase ≠ .error → execWord w s = .next t → t.phase = .error →
    ∃ (c : Cause) (o : Word), c ≠ .none ∧ t = s.withError c o

/-- ERROR is left only by a legal CFG or ABORT, every other word being ignored there (R405, R326), and either clears CAUSE
and ERROFF (R411). That they do leave it, in every phase, is CfgStartsAnOperation and AbortGoesIdle. -/
def Obligations.ErrorIsLeftOnlyByCfgOrAbort : Prop :=
  ∀ (s t : State) (w : Word), s.phase = .error → execWord w s = .next t → t ≠ s →
    (∃ i, decode w = .ok i ∧ (i = .abort ∨ ∃ c, i.cfg? = some c)) ∧ t.phase ≠ .error ∧ t.cause = .none ∧ t.errOff = 0

/-- R329: an encode operation never raises BadLength or BadCharacter; an admitted PUSH or END of it goes through. -/
def Obligations.EncodeNeverFailsOnItsData : Prop :=
  ∀ s : State, s.cfgr.dir = .enc →
    (s.phase = .active → s.ready = true →
      (∀ u : Byte, ∃ t, exec (.push u) s = .next t ∧ t.phase = .active) ∧
      ∃ t, exec .endOp s = .next t ∧ t.phase = .done) ∧
    ∀ (w : Word) (t : State), s.phase ≠ .error → execWord w s = .next t → t.phase = .error →
      t.cause = .illegalCommand ∨ t.cause = .sequence ∨ t.cause = .overrun

/-- R36: OFFSET counts the PUSH commands that complete; LCHK, END and failing commands leave it, CFG and ABORT clear
it. -/
def Obligations.OffsetCountsCompletedPushes : Prop :=
  ∀ (s t : State) (i : Instr), exec i s = .next t →
    (∀ u, i = .push u → s.phase ≠ .error → t.phase ≠ .error → t.offset = s.offset + 1) ∧
    (s.phase ≠ .error → t.phase = .error → t.offset = s.offset) ∧
    (∀ n, i = .lchk n → t.offset = s.offset) ∧
    (i = .endOp → t.offset = s.offset) ∧
    (i.restarts = true → t.offset = 0)

/-- R156, R157: a command adds at most 8 units, at the FIFO's tail and counted in OUTCNT. -/
def Obligations.CommandsEmitAtMostEight : Prop :=
  ∀ (s t : State) (i : Instr), s.Inv → i.restarts = false → exec i s = .next t →
    ∃ us : List Byte, us.length ≤ 8 ∧ EmitsOnly s t us

/-- R455 (b), R403: a host that keeps the FIFO empty before each command never meets OVERRUN. -/
def Obligations.DrainedHostNeverOverruns : Prop :=
  ∀ (s t : State) (w : Word), s.Inv → s.fifo = [] → s.phase ≠ .error → execWord w s = .next t → t.cause ≠ .overrun

/-- R327: the empty input, with or without LCHK 0, ends DONE with no output, in every mode. -/
def Obligations.EmptyInputGivesEmptyOutput : Prop :=
  ∀ (s : State) (i : Instr) (c : Cfg), s.params.Admitted → i.cfg? = some c →
    ∃ t1 t2, exec i s = .next t1 ∧ exec (.lchk 0) t1 = .next t1 ∧ exec .endOp t1 = .next t2 ∧
      t2.phase = .done ∧ t2.outCnt = 0 ∧ t2.fifo = []

/-! Base16. -/

/-- R180: PUSH in B16.ENC emits the two digits of the byte. -/
def Obligations.PushEncodesBase16 : Prop :=
  ∀ (s : State) (u : Byte), s.Admits .b16 .enc →
    exec (.push u) s = .next { s with
      fifo := s.fifo ++ [charsetSymbol .b16 (u.toNat / 16), charsetSymbol .b16 (u.toNat % 16)]
      outCnt := s.outCnt + 2
      offset := s.offset + 1 }

/-- R182: PUSH in B16.DEC keeps the first digit of a pair, emits the byte at the second, and rejects every symbol outside
the charset at the symbol's own offset. -/
def Obligations.PushDecodesBase16 : Prop :=
  ∀ (s : State) (u : Byte), s.Admits .b16 .dec →
    (u ∉ charset .b16 → exec (.push u) s = .next (s.withError .badCharacter s.offset)) ∧
    (∀ d : Nat, d < 16 → u = charsetSymbol .b16 d → s.blk = 0 →
      exec (.push u) s = .next { s with acc := BitVec.ofNat 64 d, blk := 1, offset := s.offset + 1 }) ∧
    (∀ d : Nat, d < 16 → u = charsetSymbol .b16 d → s.blk = 1 →
      exec (.push u) s = .next { s with
        fifo := s.fifo ++ [BitVec.ofNat 8 (s.acc.toNat * 16 + d)]
        outCnt := s.outCnt + 1
        acc := 0, blk := 0, padCnt := 0
        offset := s.offset + 1 })

/-- R181, R183: END in B16.ENC ends DONE; END in B16.DEC raises BadLength(OFFSET) after an odd number of symbols and else
ends DONE. -/
def Obligations.EndOfBase16 : Prop :=
  (∀ s : State, s.Admits .b16 .enc → exec .endOp s = .next { s with phase := .done }) ∧
  (∀ s : State, s.Admits .b16 .dec → s.blk = 1 → exec .endOp s = .next (s.withError .badLength s.offset)) ∧
  (∀ s : State, s.Admits .b16 .dec → s.blk ≠ 1 → exec .endOp s = .next { s with phase := .done })

/-! Base32 and Base64. -/

/-- R202: PUSH in B32.ENC adds a byte; the fifth emits the eight 5-bit digits of the block. -/
def Obligations.PushEncodesBase32 : Prop :=
  ∀ (s : State) (u : Byte), s.Admits .b32 .enc →
    (s.blk.toNat < 4 → exec (.push u) s = .next { s with
      acc := BitVec.ofNat 64 (s.acc.toNat * 256 + u.toNat), blk := s.blk + 1, offset := s.offset + 1 }) ∧
    (s.blk.toNat = 4 → exec (.push u) s = .next { s with
      fifo := s.fifo ++ (List.range 8).map fun i =>
        charsetSymbol .b32 ((s.acc.toNat * 256 + u.toNat) / 32 ^ (7 - i) % 32)
      outCnt := s.outCnt + 8
      acc := 0, blk := 0, padCnt := 0
      offset := s.offset + 1 })

/-- R232: PUSH in B64.ENC adds a byte; the third emits the four 6-bit digits of the block. -/
def Obligations.PushEncodesBase64 : Prop :=
  ∀ (s : State) (u : Byte), s.Admits .b64 .enc →
    (s.blk.toNat < 2 → exec (.push u) s = .next { s with
      acc := BitVec.ofNat 64 (s.acc.toNat * 256 + u.toNat), blk := s.blk + 1, offset := s.offset + 1 }) ∧
    (s.blk.toNat = 2 → exec (.push u) s = .next { s with
      fifo := s.fifo ++ (List.range 4).map fun i =>
        charsetSymbol .b64 ((s.acc.toNat * 256 + u.toNat) / 64 ^ (3 - i) % 64)
      outCnt := s.outCnt + 4
      acc := 0, blk := 0, padCnt := 0
      offset := s.offset + 1 })

/-- R203: END in B32.ENC flushes a short block of k bytes as S(k) digits, S = 2, 4, 5, 7, and padding up to 8. -/
def Obligations.EndFlushesBase32 : Prop :=
  ∀ s : State, s.Admits .b32 .enc →
    (s.blk = 0 → exec .endOp s = .next { s with phase := .done }) ∧
    (∀ k sig : Nat, s.blk.toNat = k → (k, sig) ∈ [(1, 2), (2, 4), (3, 5), (4, 7)] →
      exec .endOp s = .next { s with
        fifo := s.fifo ++ ((List.range sig).map fun i =>
          charsetSymbol .b32 (s.acc.toNat * 256 ^ (5 - k) / 32 ^ (7 - i) % 32)) ++ List.replicate (8 - sig) 0x3D#8
        outCnt := s.outCnt + 8
        acc := 0, blk := 0, padCnt := 0
        phase := .done })

/-- R233: END in B64.ENC flushes a short block of k bytes as S(k) digits, S = 2, 3, and padding up to 4. -/
def Obligations.EndFlushesBase64 : Prop :=
  ∀ s : State, s.Admits .b64 .enc →
    (s.blk = 0 → exec .endOp s = .next { s with phase := .done }) ∧
    (∀ k sig : Nat, s.blk.toNat = k → (k, sig) ∈ [(1, 2), (2, 3)] →
      exec .endOp s = .next { s with
        fifo := s.fifo ++ ((List.range sig).map fun i =>
          charsetSymbol .b64 (s.acc.toNat * 256 ^ (3 - k) / 64 ^ (3 - i) % 64)) ++ List.replicate (4 - sig) 0x3D#8
        outCnt := s.outCnt + 4
        acc := 0, blk := 0, padCnt := 0
        phase := .done })

/-- R204: the four errors of PUSH in B32.DEC in their order, then a digit or a padding symbol inside a block, then the
symbol that completes it. -/
def Obligations.PushDecodesBase32 : Prop :=
  ∀ (s : State) (u : Byte), s.Admits .b32 .dec →
    (s.closed = true → exec (.push u) s = .next (s.withError .badCharacter s.padOff)) ∧
    (s.closed = false →
      (u ∉ charset .b32 → exec (.push u) s = .next (s.withError .badCharacter s.offset)) ∧
      (u = 0x3D#8 → s.padCnt = 0 → s.blk.toNat ∉ [2, 4, 5, 7] →
        exec (.push u) s = .next (s.withError .badCharacter s.offset)) ∧
      (u ∈ charset .b32 → u ≠ 0x3D#8 → s.padCnt ≠ 0 →
        exec (.push u) s = .next (s.withError .badCharacter s.offset)) ∧
      (∀ d : Nat, d < 32 → u = charsetSymbol .b32 d → s.padCnt = 0 → s.blk.toNat < 7 →
        exec (.push u) s = .next { s with
          acc := BitVec.ofNat 64 (s.acc.toNat * 32 + d), blk := s.blk + 1, offset := s.offset + 1 }) ∧
      (∀ d : Nat, d < 32 → u = charsetSymbol .b32 d → s.padCnt = 0 → s.blk.toNat = 7 →
        exec (.push u) s = .next { s with
          fifo := s.fifo ++ (List.range 5).map fun j => BitVec.ofNat 8 ((s.acc.toNat * 32 + d) / 256 ^ (4 - j))
          outCnt := s.outCnt + 5
          acc := 0, blk := 0, padCnt := 0
          offset := s.offset + 1 }) ∧
      (u = 0x3D#8 → (s.padCnt ≠ 0 ∨ s.blk.toNat ∈ [2, 4, 5, 7]) → s.blk.toNat < 7 →
        exec (.push u) s = .next { s with
          acc := BitVec.ofNat 64 (s.acc.toNat * 32), blk := s.blk + 1, padCnt := s.padCnt + 1
          padOff := if s.padCnt = 0 then s.offset else s.padOff
          offset := s.offset + 1 }) ∧
      (∀ pads k : Nat, u = 0x3D#8 → s.blk.toNat = 7 → s.padCnt.toNat + 1 = pads →
        (pads, k) ∈ [(1, 4), (3, 3), (4, 2), (6, 1)] →
        exec (.push u) s = .next { s with
          fifo := s.fifo ++ (List.range k).map fun j => BitVec.ofNat 8 (s.acc.toNat * 32 / 256 ^ (4 - j))
          outCnt := s.outCnt + BitVec.ofNat 32 k
          closed := true
          padOff := if s.padCnt = 0 then s.offset else s.padOff
          acc := 0, blk := 0, padCnt := 0
          offset := s.offset + 1 }))

/-- R234: the same for B64.DEC, with blocks of 4 symbols and first padding at 2 or 3. -/
def Obligations.PushDecodesBase64 : Prop :=
  ∀ (s : State) (u : Byte), s.Admits .b64 .dec →
    (s.closed = true → exec (.push u) s = .next (s.withError .badCharacter s.padOff)) ∧
    (s.closed = false →
      (u ∉ charset .b64 → exec (.push u) s = .next (s.withError .badCharacter s.offset)) ∧
      (u = 0x3D#8 → s.padCnt = 0 → s.blk.toNat ∉ [2, 3] →
        exec (.push u) s = .next (s.withError .badCharacter s.offset)) ∧
      (u ∈ charset .b64 → u ≠ 0x3D#8 → s.padCnt ≠ 0 →
        exec (.push u) s = .next (s.withError .badCharacter s.offset)) ∧
      (∀ d : Nat, d < 64 → u = charsetSymbol .b64 d → s.padCnt = 0 → s.blk.toNat < 3 →
        exec (.push u) s = .next { s with
          acc := BitVec.ofNat 64 (s.acc.toNat * 64 + d), blk := s.blk + 1, offset := s.offset + 1 }) ∧
      (∀ d : Nat, d < 64 → u = charsetSymbol .b64 d → s.padCnt = 0 → s.blk.toNat = 3 →
        exec (.push u) s = .next { s with
          fifo := s.fifo ++ (List.range 3).map fun j => BitVec.ofNat 8 ((s.acc.toNat * 64 + d) / 256 ^ (2 - j))
          outCnt := s.outCnt + 3
          acc := 0, blk := 0, padCnt := 0
          offset := s.offset + 1 }) ∧
      (u = 0x3D#8 → (s.padCnt ≠ 0 ∨ s.blk.toNat ∈ [2, 3]) → s.blk.toNat < 3 →
        exec (.push u) s = .next { s with
          acc := BitVec.ofNat 64 (s.acc.toNat * 64), blk := s.blk + 1, padCnt := s.padCnt + 1
          padOff := if s.padCnt = 0 then s.offset else s.padOff
          offset := s.offset + 1 }) ∧
      (∀ pads k : Nat, u = 0x3D#8 → s.blk.toNat = 3 → s.padCnt.toNat + 1 = pads → (pads, k) ∈ [(1, 2), (2, 1)] →
        exec (.push u) s = .next { s with
          fifo := s.fifo ++ (List.range k).map fun j => BitVec.ofNat 8 (s.acc.toNat * 64 / 256 ^ (2 - j))
          outCnt := s.outCnt + BitVec.ofNat 32 k
          closed := true
          padOff := if s.padCnt = 0 then s.offset else s.padOff
          acc := 0, blk := 0, padCnt := 0
          offset := s.offset + 1 }))

/-- R205: END in B32.DEC ends DONE at a block boundary, flushes the K(g) bytes of a legal short block with OPTPAD, and else
raises BadLength(OFFSET). -/
def Obligations.EndDecodesBase32 : Prop :=
  ∀ s : State, s.Admits .b32 .dec →
    (s.blk = 0 → exec .endOp s = .next { s with phase := .done }) ∧
    (∀ g k : Nat, s.blk.toNat = g → (g, k) ∈ [(2, 1), (4, 2), (5, 3), (7, 4)] → s.cfgr.optpad = true → s.padCnt = 0 →
      exec .endOp s = .next { s with
        fifo := s.fifo ++ (List.range k).map fun j => BitVec.ofNat 8 (s.acc.toNat * 32 ^ (8 - g) / 256 ^ (4 - j))
        outCnt := s.outCnt + BitVec.ofNat 32 k
        acc := 0, blk := 0, padCnt := 0
        phase := .done }) ∧
    (s.blk ≠ 0 → (s.cfgr.optpad = false ∨ s.padCnt ≠ 0 ∨ s.blk.toNat ∉ [2, 4, 5, 7]) →
      exec .endOp s = .next (s.withError .badLength s.offset))

/-- R235: the same for B64.DEC. -/
def Obligations.EndDecodesBase64 : Prop :=
  ∀ s : State, s.Admits .b64 .dec →
    (s.blk = 0 → exec .endOp s = .next { s with phase := .done }) ∧
    (∀ g k : Nat, s.blk.toNat = g → (g, k) ∈ [(2, 1), (3, 2)] → s.cfgr.optpad = true → s.padCnt = 0 →
      exec .endOp s = .next { s with
        fifo := s.fifo ++ (List.range k).map fun j => BitVec.ofNat 8 (s.acc.toNat * 64 ^ (4 - g) / 256 ^ (2 - j))
        outCnt := s.outCnt + BitVec.ofNat 32 k
        acc := 0, blk := 0, padCnt := 0
        phase := .done }) ∧
    (s.blk ≠ 0 → (s.cfgr.optpad = false ∨ s.padCnt ≠ 0 ∨ s.blk.toNat ∉ [2, 3]) →
      exec .endOp s = .next (s.withError .badLength s.offset))

/-! Base85. -/

/-- R261: PUSH in B85.ENC adds a byte; the fourth emits five base-85 digits, or 'z' for a zero block with FOLDZ. -/
def Obligations.PushEncodesBase85 : Prop :=
  ∀ (s : State) (u : Byte) (v : Nat), s.Admits .b85 .enc → v = s.acc.toNat * 256 + u.toNat →
    (s.blk.toNat < 3 → exec (.push u) s = .next { s with
      acc := BitVec.ofNat 64 v, blk := s.blk + 1, offset := s.offset + 1 }) ∧
    (s.blk.toNat = 3 → s.cfgr.foldz = true → v = 0 → exec (.push u) s = .next { s with
      fifo := s.fifo ++ [0x7A#8]
      outCnt := s.outCnt + 1
      acc := 0, blk := 0, padCnt := 0
      offset := s.offset + 1 }) ∧
    (s.blk.toNat = 3 → (s.cfgr.foldz = false ∨ v ≠ 0) → exec (.push u) s = .next { s with
      fifo := s.fifo ++ (List.range 5).map fun i => BitVec.ofNat 8 (v / 85 ^ (4 - i) % 85 + 0x21)
      outCnt := s.outCnt + 5
      acc := 0, blk := 0, padCnt := 0
      offset := s.offset + 1 })

/-- R262: END in B85.ENC flushes a short block of k bytes as its first k + 1 digits, folded never. -/
def Obligations.EndFlushesBase85 : Prop :=
  ∀ s : State, s.Admits .b85 .enc →
    (s.blk = 0 → exec .endOp s = .next { s with phase := .done }) ∧
    (∀ k : Nat, s.blk.toNat = k → 1 ≤ k → k ≤ 3 → exec .endOp s = .next { s with
      fifo := s.fifo ++ (List.range (k + 1)).map fun i =>
        BitVec.ofNat 8 (s.acc.toNat * 256 ^ (4 - k) / 85 ^ (4 - i) % 85 + 0x21)
      outCnt := s.outCnt + BitVec.ofNat 32 (k + 1)
      acc := 0, blk := 0, padCnt := 0
      phase := .done })

/-- R264: PUSH in B85.DEC: 'z' with FOLDZ at a group boundary is four zero bytes and else an error; a symbol outside '!' to
'u' is an error; a digit joins the group; the fifth is checked for range and emits the four bytes. -/
def Obligations.PushDecodesBase85 : Prop :=
  ∀ (s : State) (u : Byte), s.Admits .b85 .dec →
    (u = 0x7A#8 → s.cfgr.foldz = true → s.blk = 0 → exec (.push u) s = .next { s with
      fifo := s.fifo ++ [0#8, 0#8, 0#8, 0#8], outCnt := s.outCnt + 4, offset := s.offset + 1 }) ∧
    (u = 0x7A#8 → (s.cfgr.foldz = false ∨ s.blk ≠ 0) →
      exec (.push u) s = .next (s.withError .badCharacter s.offset)) ∧
    (u ≠ 0x7A#8 → (u.toNat < 0x21 ∨ 0x75 < u.toNat) →
      exec (.push u) s = .next (s.withError .badCharacter s.offset)) ∧
    (∀ d v : Nat, d < 85 → u.toNat = d + 0x21 → v = s.acc.toNat * 85 + d →
      (s.blk.toNat < 4 → exec (.push u) s = .next { s with
        acc := BitVec.ofNat 64 v, blk := s.blk + 1, offset := s.offset + 1 }) ∧
      (s.blk.toNat = 4 → 0xFFFFFFFF < v → s.params.ovf = .error →
        exec (.push u) s = .next (s.withError .badCharacter s.offset)) ∧
      (s.blk.toNat = 4 → (v ≤ 0xFFFFFFFF ∨ s.params.ovf = .wrap) → exec (.push u) s = .next { s with
        fifo := s.fifo ++ groupValueBytes v 4
        outCnt := s.outCnt + 4
        acc := 0, blk := 0, padCnt := 0
        offset := s.offset + 1 }))

/-- END in B85.DEC: DONE at a group boundary; BadLength for one symbol; else the group is filled with 84s, checked for
range and emits g - 1 bytes (R265). The offset of the group's last symbol is OFFSET - 1 (R404); that it is taken modulo
2^32 where OFFSET has wrapped to 0 (R36) is the model's choice (log entry 9, DEDUCED). -/
def Obligations.EndDecodesBase85 : Prop :=
  ∀ s : State, s.Admits .b85 .dec →
    (s.blk = 0 → exec .endOp s = .next { s with phase := .done }) ∧
    (s.blk = 1 → exec .endOp s = .next (s.withError .badLength s.offset)) ∧
    (∀ g v : Nat, s.blk.toNat = g → 2 ≤ g → g ≤ 4 → v = s.acc.toNat * 85 ^ (5 - g) + (85 ^ (5 - g) - 1) →
      (0xFFFFFFFF < v → s.params.ovf = .error →
        exec .endOp s = .next (s.withError .badCharacter (s.offset - 1))) ∧
      ((v ≤ 0xFFFFFFFF ∨ s.params.ovf = .wrap) → exec .endOp s = .next { s with
        fifo := s.fifo ++ groupValueBytes v (g - 1)
        outCnt := s.outCnt + BitVec.ofNat 32 (g - 1)
        acc := 0, blk := 0, padCnt := 0
        phase := .done }))

/-! Base36, for both values of B36_M. -/

/-- R291: PUSH in B36.ENC adds a byte; the fourth emits the B36_M base-36 digits of the block. -/
def Obligations.PushEncodesBase36 : Prop :=
  ∀ (s : State) (u : Byte) (v m : Nat), s.Admits .b36 .enc → v = s.acc.toNat * 256 + u.toNat →
    (s.params.b36m, m) ∈ [(B36M.seven, 7), (B36M.six, 6)] →
    (s.blk.toNat < 3 → exec (.push u) s = .next { s with
      acc := BitVec.ofNat 64 v, blk := s.blk + 1, offset := s.offset + 1 }) ∧
    (s.blk.toNat = 3 → exec (.push u) s = .next { s with
      fifo := s.fifo ++ (List.range m).map fun i => charsetSymbol .b36 (v / 36 ^ (m - 1 - i) % 36)
      outCnt := s.outCnt + BitVec.ofNat 32 m
      acc := 0, blk := 0, padCnt := 0
      offset := s.offset + 1 })

/-- R292: END in B36.ENC flushes a short block of k bytes as its first n(k) digits: 3, 4, 6 with B36_M = 7 and 2, 3, 5 with
B36_M = 6. -/
def Obligations.EndFlushesBase36 : Prop :=
  ∀ s : State, s.Admits .b36 .enc →
    (s.blk = 0 → exec .endOp s = .next { s with phase := .done }) ∧
    (∀ m k n : Nat, s.blk.toNat = k →
      (s.params.b36m, m, k, n) ∈ [(B36M.seven, 7, 1, 3), (.seven, 7, 2, 4), (.seven, 7, 3, 6),
        (.six, 6, 1, 2), (.six, 6, 2, 3), (.six, 6, 3, 5)] →
      exec .endOp s = .next { s with
        fifo := s.fifo ++ (List.range n).map fun i =>
          charsetSymbol .b36 (s.acc.toNat * 256 ^ (4 - k) / 36 ^ (m - 1 - i) % 36)
        outCnt := s.outCnt + BitVec.ofNat 32 n
        acc := 0, blk := 0, padCnt := 0
        phase := .done })

/-- R293: PUSH in B36.DEC: a symbol outside the charset is an error; a digit joins the group; the last is checked for range
and emits the four bytes. -/
def Obligations.PushDecodesBase36 : Prop :=
  ∀ (s : State) (u : Byte) (m : Nat), s.Admits .b36 .dec → (s.params.b36m, m) ∈ [(B36M.seven, 7), (B36M.six, 6)] →
    (u ∉ charset .b36 → exec (.push u) s = .next (s.withError .badCharacter s.offset)) ∧
    (∀ d v : Nat, d < 36 → u = charsetSymbol .b36 d → v = s.acc.toNat * 36 + d →
      (s.blk.toNat + 1 < m → exec (.push u) s = .next { s with
        acc := BitVec.ofNat 64 v, blk := s.blk + 1, offset := s.offset + 1 }) ∧
      (s.blk.toNat + 1 = m → 0xFFFFFFFF < v → s.params.ovf = .error →
        exec (.push u) s = .next (s.withError .badCharacter s.offset)) ∧
      (s.blk.toNat + 1 = m → (v ≤ 0xFFFFFFFF ∨ s.params.ovf = .wrap) → exec (.push u) s = .next { s with
        fifo := s.fifo ++ groupValueBytes v 4
        outCnt := s.outCnt + 4
        acc := 0, blk := 0, padCnt := 0
        offset := s.offset + 1 }))

/-- END in B36.DEC: DONE at a group boundary; BadLength for a size outside GSET; else the group is filled with 35s,
checked for range and emits Kr(g) bytes (R294). The offset of the group's last symbol is OFFSET - 1 (R404); that it is
taken modulo 2^32 where OFFSET has wrapped to 0 (R36) is the model's choice (log entry 9, DEDUCED). -/
def Obligations.EndDecodesBase36 : Prop :=
  ∀ s : State, s.Admits .b36 .dec →
    (s.blk = 0 → exec .endOp s = .next { s with phase := .done }) ∧
    (s.blk ≠ 0 → ((s.params.b36m = .seven ∧ s.blk.toNat ∉ [3, 4, 6]) ∨
        (s.params.b36m = .six ∧ s.blk.toNat ∉ [2, 3, 5])) →
      exec .endOp s = .next (s.withError .badLength s.offset)) ∧
    (∀ m g k v : Nat, s.blk.toNat = g →
      (s.params.b36m, m, g, k) ∈ [(B36M.seven, 7, 3, 1), (.seven, 7, 4, 2), (.seven, 7, 6, 3),
        (.six, 6, 2, 1), (.six, 6, 3, 2), (.six, 6, 5, 3)] →
      v = s.acc.toNat * 36 ^ (m - g) + (36 ^ (m - g) - 1) →
      (0xFFFFFFFF < v → s.params.ovf = .error →
        exec .endOp s = .next (s.withError .badCharacter (s.offset - 1))) ∧
      ((v ≤ 0xFFFFFFFF ∨ s.params.ovf = .wrap) → exec .endOp s = .next { s with
        fifo := s.fifo ++ groupValueBytes v k
        outCnt := s.outCnt + BitVec.ofNat 32 k
        acc := 0, blk := 0, padCnt := 0
        phase := .done }))

/-! Tables and the engine's arithmetic. -/

/-- R130: every table equals BuildTables of its charset, for the charsets of R135 to R138. -/
def Obligations.TablesAreBuiltFromTheCharsets : Prop :=
  ∀ (c : Codec) (text : List Char) (enc dec : TableSpace),
    (c, text, enc, dec) ∈ [
      (Codec.b16, "0123456789ABCDEF".toList, TableSpace.encB16, TableSpace.decB16),
      (.b32, "ABCDEFGHIJKLMNOPQRSTUVWXYZ234567=".toList, .encB32, .decB32),
      (.b64, "ABCDEFGHIJKLMNOPQRSTUVWXYZabcdefghijklmnopqrstuvwxyz0123456789+/=".toList, .encB64, .decB64),
      (.b36, "0123456789ABCDEFGHIJKLMNOPQRSTUVWXYZ".toList, .encB36, .decB36)] →
    charset c = text.map (fun ch => BitVec.ofNat 8 ch.toNat) ∧
    (∀ (d : Nat) (u : Byte), (charset c)[d]? = some u → memRead enc d = u ∧ memRead dec u.toNat = BitVec.ofNat 8 d) ∧
    (∀ u : Byte, u.toNat < 128 → u ∉ charset c → memRead dec u.toNat = 0xFF#8)

/-- R151, R154, R158, R159, R203 to R205, R233 to R235: the S(k) digits of a block of k bytes, packed and unpacked again,
give the k bytes. -/
def Obligations.BitFieldBlocksRoundTrip : Prop :=
  ∀ (c : Codec) (k acc : Nat), c = .b16 ∨ c = .b32 ∨ c = .b64 → 1 ≤ k → k ≤ blockBytes c → acc < 256 ^ k →
    blockBytesOf (blockBytes c)
      (justifySyms (digitBits c) (bitSyms c)
        (((List.range (sigDigits c k)).map
          (bitDigit (digitBits c) (bitSyms c) (leftJustify (blockBytes c) acc k))).foldl (packDigit (digitBits c)) 0)
        (sigDigits c k)) k
    = (List.range k).map fun j => BitVec.ofNat 8 (acc / 256 ^ (k - 1 - j))

/-- R161: for any group the encode rule of Base85, or of Base36 with B36_M = 7, produces, the filled value is below 2^32
and its first k bytes are the k bytes encoded. -/
def Obligations.RadixGroupsRoundTrip : Prop :=
  ∀ r m k acc v n : Nat, (r, m) ∈ [(85, 5), (36, 7)] → 1 ≤ k → k ≤ 4 → acc < 256 ^ k →
    n = shortSyms r m k →
    v = radixFill r m (((List.range n).map (radixDigit r m (leftJustify 4 acc k))).foldl (packRadix r) 0) n →
    v < 2 ^ 32 ∧ blockBytesOf 4 v k = (List.range k).map fun j => BitVec.ofNat 8 (acc / 256 ^ (k - 1 - j))

/-! Several instances, and the assembler. -/

/-- R418: an access to one instance reads and writes the state of no other, and moves no window. -/
def Obligations.AccessTouchesOneInstance : Prop :=
  ∀ (p q : Platform) (b : BusAccess) (i : Nat), p.route b.address = some i → p.access b = .next q →
    q.engines.map (·.base) = p.engines.map (·.base) ∧ ∀ j, j ≠ i → q.engines[j]? = p.engines[j]?

/-- R79: accesses to different instances commute. -/
def Obligations.AccessesToDifferentInstancesCommute : Prop :=
  ∀ (p pa pb : Platform) (a b : BusAccess) (i j : Nat), p.route a.address = some i → p.route b.address = some j →
    i ≠ j → p.access a = .next pa → p.access b = .next pb →
    ∃ q, pa.access b = .next q ∧ pb.access a = .next q

/-- R107, R108: lines of assembly and the commands and words they assemble to. -/
def Obligations.LinesAssemble : Prop :=
  assembleLine "CFG b32, dec, optpad".toList = some [.cfgB32DecOptpad] ∧
  encode .cfgB32DecOptpad = 0x10000019#32 ∧
  assembleLine "push 'f' ; one unit".toList = some [.push 0x66] ∧
  encode (.push 0x66) = 0x30000066#32 ∧
  assembleLine "LCHK 7".toList = some [.lchk 7] ∧
  encode (.lchk 7) = 0x20000007#32 ∧
  assembleLine "DECODE b64, \"Zg\"".toList = some [.cfgB64Dec, .lchk 2, .push 0x5A, .push 0x67, .endOp] ∧
  assembleLine "CFG b16, enc, optpad".toList = none ∧
  assembleLine "PUSH 256".toList = none

/-! Operations and their results. -/

/-- R330, R331: a legal CFG starts an operation with no unit emitted, whatever came before it; every other word but ABORT
adds to the operation in progress the units it emits, which OUTCNT counts, and the first that leaves PHASE in DONE or
ERROR ends it with the result R330 gives: the units emitted since the CFG, the decode error with ERROFF, or none. -/
def Obligations.ResultIsTheUnitsSinceCfg : Prop :=
  ∀ (s t : State) (w : Word), execWord w s = .next t →
    (∀ (i : Instr) (p : Progress), decode w = .ok i → i.cfg?.isSome = true →
      p.next w s t = .running [] ∧ t.phase = .active ∧ t.outCnt = 0 ∧ t.fifo = []) ∧
    (∀ us : List Byte, (∀ i, decode w = .ok i → i.restarts = false) → s.phase = .active →
      s.outCnt = BitVec.ofNat 32 us.length →
      ∃ new : List Byte, t.fifo = s.fifo ++ new ∧ t.outCnt = BitVec.ofNat 32 (us ++ new).length ∧
        t.phase ≠ .idle ∧
        (t.phase = .active → (Progress.running us).next w s t = .running (us ++ new)) ∧
        (t.phase = .done → (Progress.running us).next w s t = .ended (.units (us ++ new))) ∧
        (t.phase = .error → (Progress.running us).next w s t = .ended (match t.cause with
          | .badLength => .badLength t.errOff
          | .badCharacter => .badCharacter t.errOff
          | .none | .illegalCommand | .sequence | .overrun => .noResult)))

/-- After the end of an operation OFFSET, OUTCNT and the FIFO no longer change until the next CFG or ABORT, every word but
those two leaves PHASE in ERROR and changes nothing of the result the operation had (R326, R331, R410). An operation in
progress that ABORT cancels has none (R332); that ABORT leaves the result of an ended one is the model's reading (log
entry 17, DEDUCED). -/
def Obligations.ResultIsFixedAtTheEnd : Prop :=
  ∀ (s t : State) (w : Word), execWord w s = .next t →
    ((s.phase = .done ∨ s.phase = .error) → (∀ i, decode w = .ok i → i.restarts = false) →
      t.phase = .error ∧ t.offset = s.offset ∧ t.outCnt = s.outCnt ∧ t.fifo = s.fifo ∧
      ∀ r : OpResult, (Progress.ended r).next w s t = .ended r) ∧
    (decode w = .ok .abort →
      (∀ us : List Byte, (Progress.running us).next w s t = .noOperation) ∧
      ∀ r : OpResult, (Progress.ended r).next w s t = .ended r)

/-- R333, R334, R330: in array mode and in streaming mode, from every state, a host that drains the FIFO after each
command gets from Base16 encode the two symbols of every byte of its input, and from Base16 decode of those symbols the
input again. -/
def Obligations.Base16OperationsRoundTrip : Prop :=
  ∀ (s : State) (us text : List Byte), s.params.Admitted →
    text = us.flatMap (fun u => [charsetSymbol .b16 (u.toNat / 16), charsetSymbol .b16 (u.toNat % 16)]) →
    resultOfRun (arrayMode .cfgB16Enc us) s = .units text ∧
    resultOfRun (streamMode .cfgB16Enc us) s = .units text ∧
    resultOfRun (arrayMode .cfgB16Dec text) s = .units us ∧
    resultOfRun (streamMode .cfgB16Dec text) s = .units us
end

