-- ==== Sys2Proof/Laws/Engine.lean ====
section
/-! SUPPORT. The engine's functions as arithmetic: the constants' values (R151, R152), packers, slicers and unpackers
as products, quotients and remainders, and what a symbol's class says about the charset (R130, R140). -/

namespace Sys2Proof.Machine

open Sys2Proof Sys2Proof.Config

/-! The constants. -/

@[simp] theorem sigSet_b32 : sigSet .b32 = [2, 4, 5, 7] := by decide

@[simp] theorem sigSet_b64 : sigSet .b64 = [2, 3] := by decide

theorem sigDigits_b32 : (List.range 6).map (sigDigits .b32) = [0, 2, 4, 5, 7, 8] := by decide

theorem sigDigits_b64 : (List.range 4).map (sigDigits .b64) = [0, 2, 3, 4] := by decide

theorem sigBytes_b32 : (List.range 9).map (sigBytes .b32) = [0, 0, 1, 0, 2, 3, 0, 4, 5] := by decide

theorem sigBytes_b64 : (List.range 5).map (sigBytes .b64) = [0, 0, 1, 2, 3] := by decide

theorem shortSyms_b85 : (List.range' 1 4).map (shortSyms 85 5) = [2, 3, 4, 5] := by decide

theorem shortSyms_b36_seven : (List.range' 1 4).map (shortSyms 36 7) = [3, 4, 6, 7] := by decide

theorem shortSyms_b36_six : (List.range' 1 4).map (shortSyms 36 6) = [2, 3, 5, 6] := by decide

@[simp] theorem groupSet_b85 : groupSet 85 5 = [2, 3, 4] := by decide

@[simp] theorem groupSet_b36_seven : groupSet 36 7 = [3, 4, 6] := by decide

@[simp] theorem groupSet_b36_six : groupSet 36 6 = [2, 3, 5] := by decide

/-- K(g) is at most the block size in bytes. -/
theorem sigBytes_le (c : Codec) (g : Nat) : sigBytes c g ≤ blockBytes c := by
  unfold sigBytes
  cases h : (List.range' 1 (blockBytes c)).find? (fun k => sigDigits c k == g) with
  | none => simp
  | some k =>
    have hk := List.mem_range'_1.mp (List.mem_of_find?_eq_some h)
    simp only [Option.getD_some]
    omega

/-- Kr(g) is at most 4. -/
theorem groupBytes_le (r m g : Nat) : groupBytes r m g ≤ 4 := by
  unfold groupBytes
  cases h : (List.range' 1 4).find? (fun k => shortSyms r m k == g) with
  | none => simp
  | some k =>
    have hk := List.mem_range'_1.mp (List.mem_of_find?_eq_some h)
    simp only [Option.getD_some]
    omega

/-- n(k) is at most M. -/
theorem shortSyms_le (r m k : Nat) : shortSyms r m k ≤ m := by
  unfold shortSyms
  cases h : (List.range (m + 1)).find? (fun n => decide (r ^ (m - n) ≤ 2 ^ (8 * (4 - k)))) with
  | none => simp
  | some n =>
    have hn := List.mem_range.mp (List.mem_of_find?_eq_some h)
    simp only [Option.getD_some]
    omega

/-! The packers. -/

theorem pack8_eq (acc : Nat) (u : Byte) : pack8 acc u = acc * 256 + u.toNat := by
  unfold pack8
  rw [← Nat.shiftLeft_add_eq_or_of_lt u.isLt, Nat.shiftLeft_eq]

theorem packDigit_eq (b acc d : Nat) (h : d < 2 ^ b) : packDigit b acc d = acc * 2 ^ b + d := by
  unfold packDigit
  rw [← Nat.shiftLeft_add_eq_or_of_lt h, Nat.shiftLeft_eq]

theorem leftJustify_eq (n acc k : Nat) : leftJustify n acc k = acc * 256 ^ (n - k) := by
  unfold leftJustify
  rw [Nat.shiftLeft_eq, Nat.pow_mul]

theorem justifySyms_eq (b m acc g : Nat) : justifySyms b m acc g = acc * (2 ^ b) ^ (m - g) := by
  unfold justifySyms
  rw [Nat.shiftLeft_eq, Nat.pow_mul]

/-! The slicers and unpackers. -/

theorem bitDigit_eq (b m v i : Nat) : bitDigit b m v i = v / (2 ^ b) ^ (m - 1 - i) % 2 ^ b := by
  unfold bitDigit
  rw [Nat.and_two_pow_sub_one_eq_mod, Nat.shiftRight_eq_div_pow, Nat.pow_mul]

theorem bitDigit_lt (b m v i : Nat) : bitDigit b m v i < 2 ^ b := by
  rw [bitDigit_eq]
  exact Nat.mod_lt _ (Nat.two_pow_pos b)

theorem radixDigit_lt (r m v i : Nat) (h : 0 < r) : radixDigit r m v i < r := Nat.mod_lt _ h

theorem byteOf_eq (n v j : Nat) : byteOf n v j = BitVec.ofNat 8 (v / 256 ^ (n - 1 - j)) := by
  unfold byteOf
  apply BitVec.eq_of_toNat_eq
  have h : (0xFF : Nat) = 2 ^ 8 - 1 := rfl
  rw [BitVec.toNat_ofNat, BitVec.toNat_ofNat, h, Nat.and_two_pow_sub_one_eq_mod, Nat.shiftRight_eq_div_pow,
    Nat.pow_mul, Nat.mod_mod]

@[simp] theorem blockBytesOf_length (n v k : Nat) : (blockBytesOf n v k).length = k := by
  simp [blockBytesOf]

@[simp] theorem bitSymbols_length (c : Codec) (v k : Nat) : (bitSymbols c v k).length = k := by
  simp [bitSymbols]

@[simp] theorem radixSymbols_length (c : Codec) (m v k : Nat) : (radixSymbols c m v k).length = k := by
  simp [radixSymbols]

/-! Symbols and classes. -/

theorem symbolOf_table (c : Codec) (d : Nat) (h : c ≠ .b85) : symbolOf c d = (charset c).getD d invalidEntry := by
  cases c <;> first | rfl | exact absurd rfl h

theorem symbolOf_b85 (d : Nat) : symbolOf .b85 d = BitVec.ofNat 8 (d + 0x21) := rfl

theorem padSymbol_b32 : padSymbol .b32 = 0x3D#8 := by decide

theorem padSymbol_b64 : padSymbol .b64 = 0x3D#8 := by decide

/-- A decode table's entry is the index in the charset, or INVALID (R130). -/
theorem getD_buildDec (cs : List Byte) (s : Byte) (h : s.toNat < 128) :
    (buildDec cs).getD s.toNat invalidEntry =
      match cs.idxOf? s with
      | some d => BitVec.ofNat 8 d
      | none => invalidEntry := by
  have hget : (buildDec cs).getD s.toNat invalidEntry = decEntry cs s.toNat := by
    simp [buildDec, List.getD, h]
  rw [hget, decEntry, BitVec.ofNat_toNat, BitVec.setWidth_eq]
  rfl

/-- A run of ASCII codes stays below its end. -/
theorem asciiRun_lt (first n : Nat) (h : first + n ≤ 128) : ∀ u ∈ asciiRun first n, u.toNat < 128 := by
  intro u hu
  obtain ⟨k, hk, rfl⟩ := List.mem_map.mp hu
  have := List.mem_range'_1.mp hk
  rw [BitVec.toNat_ofNat]
  omega

/-- Every symbol of a charset is an ASCII code (R131). -/
theorem charset_ascii (c : Codec) : ∀ u ∈ charset c, u.toNat < 128 := by
  intro u hu
  cases c <;> simp only [charset, List.mem_append, List.mem_cons, List.not_mem_nil, or_false] at hu
  · rcases hu with hu | hu <;> exact asciiRun_lt _ _ (by omega) u hu
  · rcases hu with (hu | hu) | rfl
    · exact asciiRun_lt _ _ (by omega) u hu
    · exact asciiRun_lt _ _ (by omega) u hu
    · decide
  · rcases hu with ((hu | hu) | hu) | rfl | rfl | rfl
    · exact asciiRun_lt _ _ (by omega) u hu
    · exact asciiRun_lt _ _ (by omega) u hu
    · exact asciiRun_lt _ _ (by omega) u hu
    · decide
    · decide
    · decide
  · rcases hu with hu | hu <;> exact asciiRun_lt _ _ (by omega) u hu

/-- The length of a charset: the radix, plus 1 with a padding symbol (R131); Base85 has none. -/
theorem charset_length (c : Codec) :
    (charset c).length = match c with | .b16 => 16 | .b32 => 33 | .b64 => 65 | .b85 => 0 | .b36 => 36 := by
  cases c <;> simp [charset, asciiRun]

/-- The class of a symbol whose codec has a decode table, read off the charset (R130, R140). -/
theorem classOfEntry_eq (c : Codec) (space : TableSpace) (s : Byte)
    (hspace : tableContents space = buildDec (charset c)) :
    classOfEntry c space s =
      match (charset c).idxOf? s with
      | some d => if padded c && d == radix c then .pad else .digit d
      | none => .invalid := by
  by_cases h : 0x80 ≤ s.toNat
  · have hnot : s ∉ charset c := fun hm => absurd (charset_ascii c s hm) (by omega)
    simp [classOfEntry, h, List.idxOf?_eq_none_iff.mpr hnot]
  · have hmem := getD_buildDec (charset c) s (by omega)
    rw [← hspace] at hmem
    change memRead space s.toNat = _ at hmem
    rw [classOfEntry, if_neg h, hmem]
    cases hidx : (charset c).idxOf? s with
    | none => simp [invalidEntry]
    | some d =>
      have hd : d < 65 := by
        have hlt := (List.findIdx?_eq_some_iff_getElem.mp hidx).1
        rw [charset_length] at hlt
        cases c <;> simp only at hlt <;> omega
      have hval : (BitVec.ofNat 8 d).toNat = d := by
        rw [BitVec.toNat_ofNat]
        omega
      have hne : BitVec.ofNat 8 d ≠ invalidEntry := by
        intro he
        have := congrArg BitVec.toNat he
        rw [hval] at this
        simp [invalidEntry] at this
        omega
      simp [hne, hval]

/-- A symbol of the charset is of the class its index says, every other symbol is Invalid (R135, R140). -/
theorem classOf_b16 (s : Byte) : classOf .b16 s =
    match (charset .b16).idxOf? s with
    | some d => .digit d
    | none => .invalid :=
  (classOfEntry_eq .b16 .decB16 s rfl).trans (by simp [padded])

theorem classOf_b36 (s : Byte) : classOf .b36 s =
    match (charset .b36).idxOf? s with
    | some d => .digit d
    | none => .invalid :=
  (classOfEntry_eq .b36 .decB36 s rfl).trans (by simp [padded])

theorem classOf_b32 (s : Byte) : classOf .b32 s =
    match (charset .b32).idxOf? s with
    | some d => if d = 32 then .pad else .digit d
    | none => .invalid :=
  (classOfEntry_eq .b32 .decB32 s rfl).trans (by simp [padded, radix])

theorem classOf_b64 (s : Byte) : classOf .b64 s =
    match (charset .b64).idxOf? s with
    | some d => if d = 64 then .pad else .digit d
    | none => .invalid :=
  (classOfEntry_eq .b64 .decB64 s rfl).trans (by simp [padded, radix])

theorem classOf_b85 (s : Byte) : classOf .b85 s =
    if s.toNat < 0x21 ∨ 0x75 < s.toNat then .invalid else .digit (s.toNat - 0x21) := rfl

/-- The digit of a symbol is below the radix (R140). -/
theorem classOf_digit_lt (c : Codec) (s : Byte) (d : Nat) (h : classOf c s = .digit d) : d < radix c := by
  have bound : ∀ {cs : List Byte} {d : Nat}, cs.idxOf? s = some d → d < cs.length := fun hi =>
    (List.findIdx?_eq_some_iff_getElem.mp hi).1
  cases c with
  | b16 =>
    rw [classOf_b16] at h
    split at h
    swap
    · cases h
    cases h
    rename_i hi
    have hl : (charset .b16).length = 16 := charset_length .b16
    have := bound hi
    simp only [radix]
    omega
  | b32 =>
    rw [classOf_b32] at h
    split at h
    · rename_i hi
      have := bound hi
      split at h <;> cases h
      have hl : (charset .b32).length = 33 := charset_length .b32
      simp only [radix]
      omega
    · cases h
  | b64 =>
    rw [classOf_b64] at h
    split at h
    · rename_i hi
      have := bound hi
      split at h <;> cases h
      have hl : (charset .b64).length = 65 := charset_length .b64
      simp only [radix]
      omega
    · cases h
  | b85 =>
    rw [classOf_b85] at h
    split at h <;> cases h
    simp only [radix]
    omega
  | b36 =>
    rw [classOf_b36] at h
    split at h
    swap
    · cases h
    cases h
    rename_i hi
    have hl : (charset .b36).length = 36 := charset_length .b36
    have := bound hi
    simp only [radix]
    omega

/-- Only a padded codec has a symbol of class Pad (R140). -/
theorem classOf_pad (c : Codec) (s : Byte) (h : classOf c s = .pad) : padded c = true := by
  cases c with
  | b16 => rw [classOf_b16] at h; split at h <;> cases h
  | b32 => rfl
  | b64 => rfl
  | b85 => rw [classOf_b85] at h; split at h <;> cases h
  | b36 => rw [classOf_b36] at h; split at h <;> cases h

end Sys2Proof.Machine
end

