-- ==== Sys2Proof/Laws/State.lean ====
section
/-! SUPPORT. One lemma per field per update of State, each true by rfl and tagged for simp, so that no proof unfolds a
record update; then the updates that are not one record update. -/

namespace Sys2Proof.Machine

open Sys2Proof Sys2Proof.Config

section

variable (s : State) (u : Byte)

@[simp] theorem State.emit_cfgr : (s.emit u).cfgr = s.cfgr := rfl
@[simp] theorem State.emit_phase : (s.emit u).phase = s.phase := rfl
@[simp] theorem State.emit_cause : (s.emit u).cause = s.cause := rfl
@[simp] theorem State.emit_errOff : (s.emit u).errOff = s.errOff := rfl
@[simp] theorem State.emit_offset : (s.emit u).offset = s.offset := rfl
@[simp] theorem State.emit_outCnt : (s.emit u).outCnt = s.outCnt + 1 := rfl
@[simp] theorem State.emit_acc : (s.emit u).acc = s.acc := rfl
@[simp] theorem State.emit_blk : (s.emit u).blk = s.blk := rfl
@[simp] theorem State.emit_padCnt : (s.emit u).padCnt = s.padCnt := rfl
@[simp] theorem State.emit_padOff : (s.emit u).padOff = s.padOff := rfl
@[simp] theorem State.emit_closed : (s.emit u).closed = s.closed := rfl
@[simp] theorem State.emit_fifo : (s.emit u).fifo = s.fifo ++ [u] := rfl
@[simp] theorem State.emit_params : (s.emit u).params = s.params := rfl
@[simp] theorem State.emit_owner : (s.emit u).owner = s.owner := rfl
@[simp] theorem State.emit_events : (s.emit u).events = s.events := rfl
@[simp] theorem State.emit_replies : (s.emit u).replies = s.replies := rfl

end

section

variable (s : State)

@[simp] theorem State.consume_cfgr : (s.consume).cfgr = s.cfgr := rfl
@[simp] theorem State.consume_phase : (s.consume).phase = s.phase := rfl
@[simp] theorem State.consume_cause : (s.consume).cause = s.cause := rfl
@[simp] theorem State.consume_errOff : (s.consume).errOff = s.errOff := rfl
@[simp] theorem State.consume_offset : (s.consume).offset = s.offset + 1 := rfl
@[simp] theorem State.consume_outCnt : (s.consume).outCnt = s.outCnt := rfl
@[simp] theorem State.consume_acc : (s.consume).acc = s.acc := rfl
@[simp] theorem State.consume_blk : (s.consume).blk = s.blk := rfl
@[simp] theorem State.consume_padCnt : (s.consume).padCnt = s.padCnt := rfl
@[simp] theorem State.consume_padOff : (s.consume).padOff = s.padOff := rfl
@[simp] theorem State.consume_closed : (s.consume).closed = s.closed := rfl
@[simp] theorem State.consume_fifo : (s.consume).fifo = s.fifo := rfl
@[simp] theorem State.consume_params : (s.consume).params = s.params := rfl
@[simp] theorem State.consume_owner : (s.consume).owner = s.owner := rfl
@[simp] theorem State.consume_events : (s.consume).events = s.events := rfl
@[simp] theorem State.consume_replies : (s.consume).replies = s.replies := rfl

end

section

variable (s : State) (a k : Nat)

@[simp] theorem State.hold_cfgr : (s.hold a k).cfgr = s.cfgr := rfl
@[simp] theorem State.hold_phase : (s.hold a k).phase = s.phase := rfl
@[simp] theorem State.hold_cause : (s.hold a k).cause = s.cause := rfl
@[simp] theorem State.hold_errOff : (s.hold a k).errOff = s.errOff := rfl
@[simp] theorem State.hold_offset : (s.hold a k).offset = s.offset := rfl
@[simp] theorem State.hold_outCnt : (s.hold a k).outCnt = s.outCnt := rfl
@[simp] theorem State.hold_acc : (s.hold a k).acc = BitVec.ofNat 64 a := rfl
@[simp] theorem State.hold_blk : (s.hold a k).blk = BitVec.ofNat 4 k := rfl
@[simp] theorem State.hold_padCnt : (s.hold a k).padCnt = s.padCnt := rfl
@[simp] theorem State.hold_padOff : (s.hold a k).padOff = s.padOff := rfl
@[simp] theorem State.hold_closed : (s.hold a k).closed = s.closed := rfl
@[simp] theorem State.hold_fifo : (s.hold a k).fifo = s.fifo := rfl
@[simp] theorem State.hold_params : (s.hold a k).params = s.params := rfl
@[simp] theorem State.hold_owner : (s.hold a k).owner = s.owner := rfl
@[simp] theorem State.hold_events : (s.hold a k).events = s.events := rfl
@[simp] theorem State.hold_replies : (s.hold a k).replies = s.replies := rfl

end

section

variable (s : State)

@[simp] theorem State.closeBlock_cfgr : (s.closeBlock).cfgr = s.cfgr := rfl
@[simp] theorem State.closeBlock_phase : (s.closeBlock).phase = s.phase := rfl
@[simp] theorem State.closeBlock_cause : (s.closeBlock).cause = s.cause := rfl
@[simp] theorem State.closeBlock_errOff : (s.closeBlock).errOff = s.errOff := rfl
@[simp] theorem State.closeBlock_offset : (s.closeBlock).offset = s.offset := rfl
@[simp] theorem State.closeBlock_outCnt : (s.closeBlock).outCnt = s.outCnt := rfl
@[simp] theorem State.closeBlock_acc : (s.closeBlock).acc = 0 := rfl
@[simp] theorem State.closeBlock_blk : (s.closeBlock).blk = 0 := rfl
@[simp] theorem State.closeBlock_padCnt : (s.closeBlock).padCnt = 0 := rfl
@[simp] theorem State.closeBlock_padOff : (s.closeBlock).padOff = s.padOff := rfl
@[simp] theorem State.closeBlock_closed : (s.closeBlock).closed = s.closed := rfl
@[simp] theorem State.closeBlock_fifo : (s.closeBlock).fifo = s.fifo := rfl
@[simp] theorem State.closeBlock_params : (s.closeBlock).params = s.params := rfl
@[simp] theorem State.closeBlock_owner : (s.closeBlock).owner = s.owner := rfl
@[simp] theorem State.closeBlock_events : (s.closeBlock).events = s.events := rfl
@[simp] theorem State.closeBlock_replies : (s.closeBlock).replies = s.replies := rfl

end

section

variable (s : State)

@[simp] theorem State.finish_cfgr : (s.finish).cfgr = s.cfgr := rfl
@[simp] theorem State.finish_phase : (s.finish).phase = .done := rfl
@[simp] theorem State.finish_cause : (s.finish).cause = s.cause := rfl
@[simp] theorem State.finish_errOff : (s.finish).errOff = s.errOff := rfl
@[simp] theorem State.finish_offset : (s.finish).offset = s.offset := rfl
@[simp] theorem State.finish_outCnt : (s.finish).outCnt = s.outCnt := rfl
@[simp] theorem State.finish_acc : (s.finish).acc = s.acc := rfl
@[simp] theorem State.finish_blk : (s.finish).blk = s.blk := rfl
@[simp] theorem State.finish_padCnt : (s.finish).padCnt = s.padCnt := rfl
@[simp] theorem State.finish_padOff : (s.finish).padOff = s.padOff := rfl
@[simp] theorem State.finish_closed : (s.finish).closed = s.closed := rfl
@[simp] theorem State.finish_fifo : (s.finish).fifo = s.fifo := rfl
@[simp] theorem State.finish_params : (s.finish).params = s.params := rfl
@[simp] theorem State.finish_owner : (s.finish).owner = s.owner := rfl
@[simp] theorem State.finish_events : (s.finish).events = s.events := rfl
@[simp] theorem State.finish_replies : (s.finish).replies = s.replies := rfl

end

section

variable (s : State)

@[simp] theorem State.clearOperation_cfgr : (s.clearOperation).cfgr = s.cfgr := rfl
@[simp] theorem State.clearOperation_phase : (s.clearOperation).phase = s.phase := rfl
@[simp] theorem State.clearOperation_cause : (s.clearOperation).cause = .none := rfl
@[simp] theorem State.clearOperation_errOff : (s.clearOperation).errOff = 0 := rfl
@[simp] theorem State.clearOperation_offset : (s.clearOperation).offset = 0 := rfl
@[simp] theorem State.clearOperation_outCnt : (s.clearOperation).outCnt = 0 := rfl
@[simp] theorem State.clearOperation_acc : (s.clearOperation).acc = 0 := rfl
@[simp] theorem State.clearOperation_blk : (s.clearOperation).blk = 0 := rfl
@[simp] theorem State.clearOperation_padCnt : (s.clearOperation).padCnt = 0 := rfl
@[simp] theorem State.clearOperation_padOff : (s.clearOperation).padOff = 0 := rfl
@[simp] theorem State.clearOperation_closed : (s.clearOperation).closed = false := rfl
@[simp] theorem State.clearOperation_fifo : (s.clearOperation).fifo = [] := rfl
@[simp] theorem State.clearOperation_params : (s.clearOperation).params = s.params := rfl
@[simp] theorem State.clearOperation_owner : (s.clearOperation).owner = s.owner := rfl
@[simp] theorem State.clearOperation_events : (s.clearOperation).events = s.events := rfl
@[simp] theorem State.clearOperation_replies : (s.clearOperation).replies = s.replies := rfl

end

section

variable (s : State) (r : Raise)

@[simp] theorem State.latch_cfgr : (s.latch r).cfgr = s.cfgr := rfl
@[simp] theorem State.latch_phase : (s.latch r).phase = .error := rfl
@[simp] theorem State.latch_cause : (s.latch r).cause = r.cause := rfl
@[simp] theorem State.latch_errOff : (s.latch r).errOff = r.off := rfl
@[simp] theorem State.latch_offset : (s.latch r).offset = s.offset := rfl
@[simp] theorem State.latch_outCnt : (s.latch r).outCnt = s.outCnt := rfl
@[simp] theorem State.latch_acc : (s.latch r).acc = s.acc := rfl
@[simp] theorem State.latch_blk : (s.latch r).blk = s.blk := rfl
@[simp] theorem State.latch_padCnt : (s.latch r).padCnt = s.padCnt := rfl
@[simp] theorem State.latch_padOff : (s.latch r).padOff = s.padOff := rfl
@[simp] theorem State.latch_closed : (s.latch r).closed = s.closed := rfl
@[simp] theorem State.latch_fifo : (s.latch r).fifo = s.fifo := rfl
@[simp] theorem State.latch_params : (s.latch r).params = s.params := rfl
@[simp] theorem State.latch_owner : (s.latch r).owner = s.owner := rfl
@[simp] theorem State.latch_events : (s.latch r).events = s.events := rfl
@[simp] theorem State.latch_replies : (s.latch r).replies = s.replies := rfl

end

section

variable (s : State) (c : Cfg)

@[simp] theorem State.configure_cfgr : (s.configure c).cfgr = c := rfl
@[simp] theorem State.configure_phase : (s.configure c).phase = .active := rfl
@[simp] theorem State.configure_cause : (s.configure c).cause = .none := rfl
@[simp] theorem State.configure_errOff : (s.configure c).errOff = 0 := rfl
@[simp] theorem State.configure_offset : (s.configure c).offset = 0 := rfl
@[simp] theorem State.configure_outCnt : (s.configure c).outCnt = 0 := rfl
@[simp] theorem State.configure_acc : (s.configure c).acc = 0 := rfl
@[simp] theorem State.configure_blk : (s.configure c).blk = 0 := rfl
@[simp] theorem State.configure_padCnt : (s.configure c).padCnt = 0 := rfl
@[simp] theorem State.configure_padOff : (s.configure c).padOff = 0 := rfl
@[simp] theorem State.configure_closed : (s.configure c).closed = false := rfl
@[simp] theorem State.configure_fifo : (s.configure c).fifo = [] := rfl
@[simp] theorem State.configure_params : (s.configure c).params = s.params := rfl
@[simp] theorem State.configure_owner : (s.configure c).owner = s.owner := rfl
@[simp] theorem State.configure_events : (s.configure c).events = s.events := rfl
@[simp] theorem State.configure_replies : (s.configure c).replies = s.replies := rfl

end

section

variable (s : State)

@[simp] theorem State.goIdle_cfgr : (s.goIdle).cfgr = s.cfgr := rfl
@[simp] theorem State.goIdle_phase : (s.goIdle).phase = .idle := rfl
@[simp] theorem State.goIdle_cause : (s.goIdle).cause = .none := rfl
@[simp] theorem State.goIdle_errOff : (s.goIdle).errOff = 0 := rfl
@[simp] theorem State.goIdle_offset : (s.goIdle).offset = 0 := rfl
@[simp] theorem State.goIdle_outCnt : (s.goIdle).outCnt = 0 := rfl
@[simp] theorem State.goIdle_acc : (s.goIdle).acc = 0 := rfl
@[simp] theorem State.goIdle_blk : (s.goIdle).blk = 0 := rfl
@[simp] theorem State.goIdle_padCnt : (s.goIdle).padCnt = 0 := rfl
@[simp] theorem State.goIdle_padOff : (s.goIdle).padOff = 0 := rfl
@[simp] theorem State.goIdle_closed : (s.goIdle).closed = false := rfl
@[simp] theorem State.goIdle_fifo : (s.goIdle).fifo = [] := rfl
@[simp] theorem State.goIdle_params : (s.goIdle).params = s.params := rfl
@[simp] theorem State.goIdle_owner : (s.goIdle).owner = s.owner := rfl
@[simp] theorem State.goIdle_events : (s.goIdle).events = s.events := rfl
@[simp] theorem State.goIdle_replies : (s.goIdle).replies = s.replies := rfl

end

section

variable (s : State)

@[simp] theorem State.resetInstance_cfgr : (s.resetInstance).cfgr = ⟨.b16, .enc, false, false⟩ := rfl
@[simp] theorem State.resetInstance_phase : (s.resetInstance).phase = .idle := rfl
@[simp] theorem State.resetInstance_cause : (s.resetInstance).cause = .none := rfl
@[simp] theorem State.resetInstance_errOff : (s.resetInstance).errOff = 0 := rfl
@[simp] theorem State.resetInstance_offset : (s.resetInstance).offset = 0 := rfl
@[simp] theorem State.resetInstance_outCnt : (s.resetInstance).outCnt = 0 := rfl
@[simp] theorem State.resetInstance_acc : (s.resetInstance).acc = 0 := rfl
@[simp] theorem State.resetInstance_blk : (s.resetInstance).blk = 0 := rfl
@[simp] theorem State.resetInstance_padCnt : (s.resetInstance).padCnt = 0 := rfl
@[simp] theorem State.resetInstance_padOff : (s.resetInstance).padOff = 0 := rfl
@[simp] theorem State.resetInstance_closed : (s.resetInstance).closed = false := rfl
@[simp] theorem State.resetInstance_fifo : (s.resetInstance).fifo = [] := rfl
@[simp] theorem State.resetInstance_params : (s.resetInstance).params = s.params := rfl
@[simp] theorem State.resetInstance_owner : (s.resetInstance).owner = s.owner := rfl
@[simp] theorem State.resetInstance_events : (s.resetInstance).events = s.events := rfl
@[simp] theorem State.resetInstance_replies : (s.resetInstance).replies = s.replies := rfl

end

section

variable (s : State) (w : Word)

@[simp] theorem State.reply_cfgr : (s.reply w).cfgr = s.cfgr := rfl
@[simp] theorem State.reply_phase : (s.reply w).phase = s.phase := rfl
@[simp] theorem State.reply_cause : (s.reply w).cause = s.cause := rfl
@[simp] theorem State.reply_errOff : (s.reply w).errOff = s.errOff := rfl
@[simp] theorem State.reply_offset : (s.reply w).offset = s.offset := rfl
@[simp] theorem State.reply_outCnt : (s.reply w).outCnt = s.outCnt := rfl
@[simp] theorem State.reply_acc : (s.reply w).acc = s.acc := rfl
@[simp] theorem State.reply_blk : (s.reply w).blk = s.blk := rfl
@[simp] theorem State.reply_padCnt : (s.reply w).padCnt = s.padCnt := rfl
@[simp] theorem State.reply_padOff : (s.reply w).padOff = s.padOff := rfl
@[simp] theorem State.reply_closed : (s.reply w).closed = s.closed := rfl
@[simp] theorem State.reply_fifo : (s.reply w).fifo = s.fifo := rfl
@[simp] theorem State.reply_params : (s.reply w).params = s.params := rfl
@[simp] theorem State.reply_owner : (s.reply w).owner = s.owner := rfl
@[simp] theorem State.reply_events : (s.reply w).events = s.events := rfl
@[simp] theorem State.reply_replies : (s.reply w).replies = s.replies ++ [w] := rfl

end

/-- `Emit` over a list: the units go to the FIFO's tail in order and are counted (R156). -/
theorem State.emitAll_eq (s : State) (us : List Byte) :
    s.emitAll us = { s with fifo := s.fifo ++ us, outCnt := s.outCnt + BitVec.ofNat 32 us.length } := by
  induction us generalizing s with
  | nil => simp [State.emitAll]
  | cons u us ih =>
    have h : s.emitAll (u :: us) = (s.emit u).emitAll us := rfl
    rw [h, ih]
    simp only [State.emit, List.append_assoc, List.singleton_append, List.length_cons, BitVec.ofNat_add, BitVec.add_assoc]
    rw [BitVec.add_comm (BitVec.ofNat 32 us.length)]
    rfl

section

variable (s : State) (us : List Byte)

@[simp] theorem State.emitAll_cfgr : (s.emitAll us).cfgr = s.cfgr := by
  rw [State.emitAll_eq]
@[simp] theorem State.emitAll_phase : (s.emitAll us).phase = s.phase := by
  rw [State.emitAll_eq]
@[simp] theorem State.emitAll_cause : (s.emitAll us).cause = s.cause := by
  rw [State.emitAll_eq]
@[simp] theorem State.emitAll_errOff : (s.emitAll us).errOff = s.errOff := by
  rw [State.emitAll_eq]
@[simp] theorem State.emitAll_offset : (s.emitAll us).offset = s.offset := by
  rw [State.emitAll_eq]
@[simp] theorem State.emitAll_outCnt : (s.emitAll us).outCnt = s.outCnt + BitVec.ofNat 32 us.length := by
  rw [State.emitAll_eq]
@[simp] theorem State.emitAll_acc : (s.emitAll us).acc = s.acc := by
  rw [State.emitAll_eq]
@[simp] theorem State.emitAll_blk : (s.emitAll us).blk = s.blk := by
  rw [State.emitAll_eq]
@[simp] theorem State.emitAll_padCnt : (s.emitAll us).padCnt = s.padCnt := by
  rw [State.emitAll_eq]
@[simp] theorem State.emitAll_padOff : (s.emitAll us).padOff = s.padOff := by
  rw [State.emitAll_eq]
@[simp] theorem State.emitAll_closed : (s.emitAll us).closed = s.closed := by
  rw [State.emitAll_eq]
@[simp] theorem State.emitAll_fifo : (s.emitAll us).fifo = s.fifo ++ us := by
  rw [State.emitAll_eq]
@[simp] theorem State.emitAll_params : (s.emitAll us).params = s.params := by
  rw [State.emitAll_eq]
@[simp] theorem State.emitAll_owner : (s.emitAll us).owner = s.owner := by
  rw [State.emitAll_eq]
@[simp] theorem State.emitAll_events : (s.emitAll us).events = s.events := by
  rw [State.emitAll_eq]
@[simp] theorem State.emitAll_replies : (s.emitAll us).replies = s.replies := by
  rw [State.emitAll_eq]

end

section

variable (s : State) (n : Nat) (o : Word)

@[simp] theorem State.closeInput_cfgr : (s.closeInput n o).cfgr = s.cfgr := by
  unfold State.closeInput; split <;> rfl
@[simp] theorem State.closeInput_phase : (s.closeInput n o).phase = s.phase := by
  unfold State.closeInput; split <;> rfl
@[simp] theorem State.closeInput_cause : (s.closeInput n o).cause = s.cause := by
  unfold State.closeInput; split <;> rfl
@[simp] theorem State.closeInput_errOff : (s.closeInput n o).errOff = s.errOff := by
  unfold State.closeInput; split <;> rfl
@[simp] theorem State.closeInput_offset : (s.closeInput n o).offset = s.offset := by
  unfold State.closeInput; split <;> rfl
@[simp] theorem State.closeInput_outCnt : (s.closeInput n o).outCnt = s.outCnt := by
  unfold State.closeInput; split <;> rfl
@[simp] theorem State.closeInput_acc : (s.closeInput n o).acc = s.acc := by
  unfold State.closeInput; split <;> rfl
@[simp] theorem State.closeInput_blk : (s.closeInput n o).blk = s.blk := by
  unfold State.closeInput; split <;> rfl
@[simp] theorem State.closeInput_padCnt : (s.closeInput n o).padCnt = s.padCnt := by
  unfold State.closeInput; split <;> rfl
@[simp] theorem State.closeInput_padOff : (s.closeInput n o).padOff = if 0 < n then o else s.padOff := by
  unfold State.closeInput; split <;> simp_all
@[simp] theorem State.closeInput_closed : (s.closeInput n o).closed = (decide (0 < n) || s.closed) := by
  unfold State.closeInput; split <;> simp_all
@[simp] theorem State.closeInput_fifo : (s.closeInput n o).fifo = s.fifo := by
  unfold State.closeInput; split <;> rfl
@[simp] theorem State.closeInput_params : (s.closeInput n o).params = s.params := by
  unfold State.closeInput; split <;> rfl
@[simp] theorem State.closeInput_owner : (s.closeInput n o).owner = s.owner := by
  unfold State.closeInput; split <;> rfl
@[simp] theorem State.closeInput_events : (s.closeInput n o).events = s.events := by
  unfold State.closeInput; split <;> rfl
@[simp] theorem State.closeInput_replies : (s.closeInput n o).replies = s.replies := by
  unfold State.closeInput; split <;> rfl

end

/-- Draining returns the FIFO's units. -/
@[simp] theorem State.drain_fst (s : State) : s.drain.1 = s.fifo := rfl

/-- Draining leaves the FIFO empty and nothing else changed. -/
@[simp] theorem State.drain_snd (s : State) : s.drain.2 = { s with fifo := [] } := rfl

end Sys2Proof.Machine
end

