-- ==== Sys2Proof/Laws/Ops.lean ====
section
/-! SUPPORT. What the shared operations can do, said once: the transaction (R11), the phase checks (R322, R405), the
mode rules of PUSH and END (spec/42 to spec/46), and every command (R326). A proof about a command cites these and unfolds
no rule. -/

namespace Sys2Proof.Machine

open Sys2Proof Sys2Proof.Config

/-! Transactions and phase checks. -/

@[simp] theorem commit_ok (s t : State) : commit s (.ok t) = .next t := rfl

@[simp] theorem commit_error (s : State) (e : Raise) : commit s (.error e) = .next (s.latch e) := rfl

/-- In ERROR a command other than CFG and ABORT is ignored (R405). -/
theorem runUnlessError_of_error {s : State} (h : s.phase = .error) (r : Except Raise State) :
    runUnlessError s r = .next s := if_pos h

/-- In the other phases it is a transaction (R336). -/
theorem runUnlessError_of_ne {s : State} (h : s.phase ≠ .error) (r : Except Raise State) :
    runUnlessError s r = commit s r := if_neg h

/-- What a command other than CFG and ABORT can do: nothing in ERROR, its rule's writes, or the latch. -/
theorem runUnlessError_next {s t : State} {r : Except Raise State} (h : runUnlessError s r = .next t) :
    (s.phase = .error ∧ t = s) ∨ (s.phase ≠ .error ∧ r = .ok t) ∨
      (s.phase ≠ .error ∧ ∃ e, r = .error e ∧ t = s.latch e) := by
  by_cases hp : s.phase = .error
  · rw [runUnlessError_of_error hp] at h
    cases h
    exact .inl ⟨hp, rfl⟩
  · rw [runUnlessError_of_ne hp] at h
    cases r with
    | ok s' => cases h; exact .inr (.inl ⟨hp, rfl⟩)
    | error e => cases h; exact .inr (.inr ⟨hp, e, rfl, rfl⟩)

/-- A transaction always answers a next state: an error is latched, it stops nothing (R404). -/
theorem runUnlessError_total (s : State) (r : Except Raise State) : ∃ t, runUnlessError s r = .next t := by
  by_cases hp : s.phase = .error
  · exact ⟨s, runUnlessError_of_error hp r⟩
  · rw [runUnlessError_of_ne hp]
    cases r with
    | ok t => exact ⟨t, rfl⟩
    | error e => exact ⟨s.latch e, rfl⟩

/-- PUSH and END run their mode rule in ACTIVE with READY = 1 (R322, R323). -/
theorem admitted_of_ready {s : State} (ha : s.phase = .active) (hr : s.ready = true) (r : Except Raise State) :
    admitted s r = r := by
  simp [admitted, ha, hr]

/-- SEQUENCE outside ACTIVE (R402). -/
theorem admitted_of_not_active {s : State} (ha : s.phase ≠ .active) (r : Except Raise State) :
    admitted s r = .error ⟨.sequence, s.offset⟩ := by
  simp [admitted, ha]

/-- OVERRUN without READY (R403). -/
theorem admitted_of_not_ready {s : State} (ha : s.phase = .active) (hr : s.ready = false) (r : Except Raise State) :
    admitted s r = .error ⟨.overrun, s.offset⟩ := by
  simp [admitted, ha, hr]

/-- A PUSH or END that writes was admitted and its mode rule wrote. -/
theorem admitted_ok {s t : State} {r : Except Raise State} (h : admitted s r = .ok t) :
    s.phase = .active ∧ s.ready = true ∧ r = .ok t := by
  unfold admitted at h
  split at h
  · cases h
  · rename_i hp
    split at h
    · exact ⟨not_not.mp hp, by assumption, h⟩
    · cases h

/-- In ACTIVE with READY = 1 a command is its mode rule's transaction. -/
theorem run_admitted {s : State} (ha : s.phase = .active) (hr : s.ready = true) (r : Except Raise State) :
    runUnlessError s (admitted s r) = commit s r := by
  rw [admitted_of_ready ha hr, runUnlessError_of_ne (by simp [ha])]

/-! The mode rules. -/

/-- What every PUSH that completes does: at most 8 units at the FIFO's tail, counted in OUTCNT, one unit consumed, and no
other register of the host interface changed (R36, R156, R157). -/
structure PushEffect (s t : State) : Prop where
  emits : ∃ us : List Byte, us.length ≤ 8 ∧ t.fifo = s.fifo ++ us ∧ t.outCnt = s.outCnt + BitVec.ofNat 32 us.length
  offset : t.offset = s.offset + 1
  cfgr : t.cfgr = s.cfgr
  phase : t.phase = s.phase
  cause : t.cause = s.cause
  errOff : t.errOff = s.errOff
  params : t.params = s.params
  owner : t.owner = s.owner
  events : t.events = s.events
  replies : t.replies = s.replies

/-- A Base32 or Base64 encode block holds at most N bytes; R39 says fewer. -/
def State.EncodeBlockFits (s : State) : Prop :=
  s.cfgr.dir = .enc → padded s.cfgr.codec = true → s.blk.toNat ≤ blockBytes s.cfgr.codec

/-- What every END that completes does (R323); its units are at most 8 when the block in progress fits. -/
structure EndEffect (s t : State) : Prop where
  emits : ∃ us : List Byte, (s.EncodeBlockFits → us.length ≤ 8) ∧ t.fifo = s.fifo ++ us ∧ t.outCnt = s.outCnt + BitVec.ofNat 32 us.length
  offset : t.offset = s.offset
  cfgr : t.cfgr = s.cfgr
  phase : t.phase = .done
  cause : t.cause = s.cause
  errOff : t.errOff = s.errOff
  closed : t.closed = s.closed
  padOff : t.padOff = s.padOff
  params : t.params = s.params
  owner : t.owner = s.owner
  events : t.events = s.events
  replies : t.replies = s.replies

theorem PushEffect.of_hold (s : State) (a k : Nat) : PushEffect s (s.hold a k).consume :=
  ⟨⟨[], by simp⟩, rfl, rfl, rfl, rfl, rfl, rfl, rfl, rfl, rfl⟩

theorem PushEffect.of_emit (s : State) (us : List Byte) (h : us.length ≤ 8) :
    PushEffect s (s.emitAll us).closeBlock.consume :=
  ⟨⟨us, h, by simp, by simp⟩, by simp, by simp, by simp, by simp, by simp, by simp, by simp, by simp, by simp⟩

theorem PushEffect.of_units (s : State) (us : List Byte) (h : us.length ≤ 8) :
    PushEffect s (s.emitAll us).consume :=
  ⟨⟨us, h, by simp, by simp⟩, by simp, by simp, by simp, by simp, by simp, by simp, by simp, by simp, by simp⟩

theorem EndEffect.of_finish (s : State) : EndEffect s s.finish :=
  ⟨⟨[], fun _ => by simp, by simp, by simp⟩, rfl, rfl, rfl, rfl, rfl, rfl, rfl, rfl, rfl, rfl, rfl⟩

theorem EndEffect.of_emit (s : State) (us : List Byte) (h : s.EncodeBlockFits → us.length ≤ 8) :
    EndEffect s (s.emitAll us).closeBlock.finish :=
  ⟨⟨us, h, by simp, by simp⟩, by simp, by simp, rfl, by simp, by simp, by simp, by simp, by simp, by simp, by simp,
    by simp⟩

theorem blockBytes_le (c : Codec) : blockBytes c ≤ 5 := by cases c <;> decide

theorem bitSyms_le (c : Codec) : bitSyms c ≤ 8 := by cases c <;> decide

theorem b36m_count_le (m : B36M) : m.count ≤ 7 := by cases m <;> decide

theorem blockSyms_le (p : Params) (c : Codec) : blockSyms p c ≤ 8 := by
  cases c with
  | b36 => exact (b36m_count_le p.b36m).trans (by omega)
  | _ => simp [blockSyms]

theorem pushPaddedEnc_effect {c : Codec} {u : Byte} {s t : State} (h : pushPaddedEnc c u s = .ok t) :
    PushEffect s t := by
  simp only [pushPaddedEnc] at h
  split at h <;> cases h
  · exact .of_hold s _ _
  · exact .of_emit s _ (by simpa using bitSyms_le c)

theorem acceptSymbol_effect (c : Codec) (acc padcnt : Nat) (o : Word) (s : State) :
    PushEffect s (acceptSymbol c acc padcnt o s) := by
  unfold acceptSymbol
  simp only
  split
  · exact ⟨⟨[], by simp⟩, rfl, rfl, rfl, rfl, rfl, rfl, rfl, rfl, rfl⟩
  · have hk := (sigBytes_le c (bitSyms c - padcnt)).trans (blockBytes_le c)
    exact ⟨⟨blockBytesOf (blockBytes c) acc (sigBytes c (bitSyms c - padcnt)), by simp; omega, by simp, by simp⟩,
      by simp, by simp, by simp, by simp, by simp, by simp, by simp, by simp, by simp⟩

theorem pushPaddedDec_effect {c : Codec} {u : Byte} {s t : State} (h : pushPaddedDec c u s = .ok t) :
    PushEffect s t := by
  unfold pushPaddedDec at h
  split at h
  · cases h
  · split at h
    · cases h
    · split at h <;> cases h
      exact acceptSymbol_effect _ _ _ _ _
    · split at h <;> cases h
      exact acceptSymbol_effect _ _ _ _ _

theorem pushRadixEnc_effect {c : Codec} {full : Nat → List Byte} (hf : ∀ a, (full a).length ≤ 8) {u : Byte}
    {s t : State} (h : pushRadixEnc c full u s = .ok t) : PushEffect s t := by
  simp only [pushRadixEnc] at h
  split at h <;> cases h
  · exact .of_hold s _ _
  · exact .of_emit s _ (hf _)

theorem pushRadixDec_effect {c : Codec} {u : Byte} {s t : State} (h : pushRadixDec c u s = .ok t) :
    PushEffect s t := by
  unfold pushRadixDec at h
  split at h
  · simp only [pushRadixDigit] at h
    split at h
    · cases h
      exact .of_hold s _ _
    · split at h <;> cases h
      exact .of_emit s _ (by simp)
  · cases h
  · cases h

theorem fullB85_length (f : Bool) (a : Nat) : (fullB85 f a).length ≤ 8 := by
  unfold fullB85
  split <;> simp

/-- What a PUSH rule that completes does, in every mode (R325). -/
theorem pushRule_effect {u : Byte} {s t : State} (h : pushRule u s = .ok t) : PushEffect s t := by
  unfold pushRule at h
  split at h
  · cases h
    exact .of_units s _ (by simp)
  · unfold pushB16Dec at h
    split at h
    · cases h
      unfold acceptHex
      split
      · exact .of_hold s _ _
      · exact .of_emit s _ (by simp)
    · cases h
    · cases h
  · exact pushPaddedEnc_effect h
  · exact pushPaddedDec_effect h
  · exact pushPaddedEnc_effect h
  · exact pushPaddedDec_effect h
  · exact pushRadixEnc_effect (fullB85_length _) h
  · unfold pushB85Dec at h
    split at h
    · split at h <;> cases h
      exact .of_units s _ (by simp)
    · exact pushRadixDec_effect h
  · exact pushRadixEnc_effect (fun a => by simpa using (b36m_count_le s.params.b36m).trans (by omega)) h
  · exact pushRadixDec_effect h

theorem paddedTail_length (c : Codec) (acc k : Nat) (h : sigDigits c k ≤ bitSyms c) :
    (paddedTail c acc k).length = bitSyms c := by
  simp only [paddedTail, List.length_append, bitSymbols_length, List.length_replicate]
  omega

theorem endRadixEnc_effect {c : Codec} {s t : State} (h : endRadixEnc c s = .ok t) : EndEffect s t := by
  simp only [endRadixEnc] at h
  split at h <;> cases h
  · exact .of_emit s _ (fun _ => by simpa using (shortSyms_le _ _ _).trans (blockSyms_le _ _))
  · exact .of_finish s

theorem endPaddedDec_effect {c : Codec} {s t : State} (h : endPaddedDec c s = .ok t) : EndEffect s t := by
  simp only [endPaddedDec] at h
  split at h
  · cases h
    exact .of_finish s
  · split at h <;> cases h
    exact .of_emit s _ (fun _ => by simpa using (sigBytes_le c _).trans ((blockBytes_le c).trans (by omega)))

theorem endRadixDec_effect {c : Codec} {s t : State} (h : endRadixDec c s = .ok t) : EndEffect s t := by
  simp only [endRadixDec] at h
  split at h
  · cases h
    exact .of_finish s
  · split at h
    · cases h
    · split at h <;> cases h
      exact .of_emit s _ (fun _ => by simpa using (groupBytes_le _ _ _).trans (by omega))

theorem endPaddedEnc_effect {c : Codec} {s t : State} (hc : s.cfgr.codec = c) (hd : s.cfgr.dir = .enc) (hp : padded c = true)
    (h : endPaddedEnc c s = .ok t) : EndEffect s t := by
  simp only [endPaddedEnc] at h
  split at h <;> cases h
  · refine .of_emit s _ fun hfit => ?_
    have hk := hfit hd (hc ▸ hp)
    rw [hc] at hk
    rw [paddedTail_length]
    · exact bitSyms_le c
    · cases c <;> simp only [padded, Bool.false_eq_true] at hp <;>
        (simp only [sigDigits, digitBits, bitSyms, blockSyms, blockBytes] at hk ⊢; omega)
  · exact .of_finish s

/-- What an END rule that completes does, in every mode (R325). -/
theorem endRule_effect {s t : State} (h : endRule s = .ok t) : EndEffect s t := by
  unfold endRule at h
  split at h <;> rename_i hc hd
  · cases h
    exact .of_finish s
  · unfold endB16Dec at h
    split at h <;> cases h
    exact .of_finish s
  · exact endPaddedEnc_effect hc hd rfl h
  · exact endPaddedDec_effect h
  · exact endPaddedEnc_effect hc hd rfl h
  · exact endPaddedDec_effect h
  · exact endRadixEnc_effect h
  · exact endRadixDec_effect h
  · exact endRadixEnc_effect h
  · exact endRadixDec_effect h

/-! What a rule raises. -/

theorem pushRadixDec_raises {c : Codec} {u : Byte} {s : State} {e : Raise} (h : pushRadixDec c u s = .error e) :
    e = ⟨.badCharacter, s.offset⟩ := by
  unfold pushRadixDec at h
  split at h
  · simp only [pushRadixDigit] at h
    split at h
    · cases h
    · split at h <;> cases h
      rfl
  · cases h; rfl
  · cases h; rfl

theorem pushPaddedDec_raises {c : Codec} {u : Byte} {s : State} {e : Raise} (h : pushPaddedDec c u s = .error e) :
    e.cause = .badCharacter := by
  unfold pushPaddedDec at h
  split at h
  · cases h; rfl
  · split at h
    · cases h; rfl
    · split at h <;> cases h
      rfl
    · split at h <;> cases h
      rfl

/-- A PUSH rule raises BadCharacter and nothing else, and only in a decode mode (R329, R407). -/
theorem pushRule_raises {u : Byte} {s : State} {e : Raise} (h : pushRule u s = .error e) :
    s.cfgr.dir = .dec ∧ e.cause = .badCharacter := by
  unfold pushRule at h
  split at h <;> rename_i hc hd
  · cases h
  · unfold pushB16Dec at h
    split at h <;> cases h <;> exact ⟨hd, rfl⟩
  · simp only [pushB32Enc, pushPaddedEnc] at h
    split at h <;> cases h
  · exact ⟨hd, pushPaddedDec_raises h⟩
  · simp only [pushB64Enc, pushPaddedEnc] at h
    split at h <;> cases h
  · exact ⟨hd, pushPaddedDec_raises h⟩
  · simp only [pushB85Enc, pushRadixEnc] at h
    split at h <;> cases h
  · unfold pushB85Dec at h
    split at h
    · split at h <;> cases h
      exact ⟨hd, rfl⟩
    · exact ⟨hd, by rw [pushRadixDec_raises h]⟩
  · simp only [pushB36Enc, pushRadixEnc] at h
    split at h <;> cases h
  · exact ⟨hd, by rw [pushRadixDec_raises h]⟩

theorem endPaddedDec_raises {c : Codec} {s : State} {e : Raise} (h : endPaddedDec c s = .error e) :
    e = ⟨.badLength, s.offset⟩ := by
  simp only [endPaddedDec] at h
  split at h
  · cases h
  · split at h <;> cases h
    rfl

theorem endRadixDec_raises {c : Codec} {s : State} {e : Raise} (h : endRadixDec c s = .error e) :
    e.cause = .badLength ∨ e.cause = .badCharacter := by
  simp only [endRadixDec] at h
  split at h
  · cases h
  · split at h
    · cases h; exact .inl rfl
    · split at h <;> cases h
      exact .inr rfl

/-- An END rule raises BadLength or BadCharacter, and only in a decode mode (R329, R406, R407). -/
theorem endRule_raises {s : State} {e : Raise} (h : endRule s = .error e) :
    s.cfgr.dir = .dec ∧ (e.cause = .badLength ∨ e.cause = .badCharacter) := by
  unfold endRule at h
  split at h <;> rename_i hc hd
  · cases h
  · unfold endB16Dec at h
    split at h <;> cases h
    exact ⟨hd, .inl rfl⟩
  · simp only [endB32Enc, endPaddedEnc] at h
    split at h <;> cases h
  · exact ⟨hd, .inl (by rw [endPaddedDec_raises h])⟩
  · simp only [endB64Enc, endPaddedEnc] at h
    split at h <;> cases h
  · exact ⟨hd, .inl (by rw [endPaddedDec_raises h])⟩
  · simp only [endB85Enc, endRadixEnc] at h
    split at h <;> cases h
  · exact ⟨hd, endRadixDec_raises h⟩
  · simp only [endB36Enc, endRadixEnc] at h
    split at h <;> cases h
  · exact ⟨hd, endRadixDec_raises h⟩

/-- What LCHK can do: nothing, SEQUENCE or BadLength(0), the last only in a decode mode (R321). -/
theorem lengthCheck_cases (n : BitVec 28) (s : State) :
    (s.phase = .active ∧ lengthCheck n s = .ok s) ∨ lengthCheck n s = .error ⟨.sequence, s.offset⟩ ∨
      (s.cfgr.dir = .dec ∧ lengthCheck n s = .error ⟨.badLength, 0⟩) := by
  unfold lengthCheck
  split
  · exact .inr (.inl rfl)
  · rename_i hseq
    split
    · rename_i hbad
      refine .inr (.inr ⟨?_, rfl⟩)
      simp only [badArrayLength, Bool.and_eq_true, beq_iff_eq] at hbad
      exact hbad.1.1.1
    · exact .inl ⟨not_not.mp fun h => hseq (.inl h), rfl⟩

/-! Every command. -/

/-- A CFG command configures, in every phase (R320). -/
theorem exec_cfg {i : Instr} {c : Cfg} (h : i.cfg? = some c) (s : State) : exec i s = .next (s.configure c) := by
  cases i <;> cases h <;> rfl

theorem exec_abort (s : State) : exec .abort s = .next s.goIdle := rfl

theorem exec_lchk (n : BitVec 28) (s : State) : exec (.lchk n) s = runUnlessError s (lengthCheck n s) := rfl

theorem exec_push (u : Byte) (s : State) : exec (.push u) s = runUnlessError s (admitted s (pushRule u s)) := rfl

theorem exec_end (s : State) : exec .endOp s = runUnlessError s (admitted s (endRule s)) := rfl

/-- PUSH in mode (c, d) with PHASE = ACTIVE and READY = 1 is its mode rule's transaction (R322). -/
theorem exec_push_of_ready {u : Byte} {s : State} (ha : s.phase = .active) (hr : s.ready = true) :
    exec (.push u) s = commit s (pushRule u s) := (exec_push u s).trans (run_admitted ha hr _)

/-- END with PHASE = ACTIVE and READY = 1 is its mode rule's transaction (R323). -/
theorem exec_end_of_ready {s : State} (ha : s.phase = .active) (hr : s.ready = true) :
    exec .endOp s = commit s (endRule s) := (exec_end s).trans (run_admitted ha hr _)

/-- Every command answers a next state, in every state. -/
theorem exec_total (i : Instr) (s : State) : ∃ t, exec i s = .next t := by
  cases i with
  | lchk n => exact runUnlessError_total s _
  | push u => exact runUnlessError_total s _
  | endOp => exact runUnlessError_total s _
  | abort => exact ⟨_, rfl⟩
  | _ => exact ⟨_, rfl⟩

/-- What a command other than CFG and ABORT raises: SEQUENCE, OVERRUN without READY, or a decode error (R400, R408). -/
def State.Raises (s : State) (e : Raise) : Prop :=
  e.cause = .sequence ∨ (e.cause = .overrun ∧ s.ready = false) ∨
    ((e.cause = .badLength ∨ e.cause = .badCharacter) ∧ s.cfgr.dir = .dec)

/-- No command raises without a cause. -/
theorem State.Raises.cause_ne {s : State} {e : Raise} (h : s.Raises e) : e.cause ≠ .none := by
  rcases h with h | ⟨h, -⟩ | ⟨h | h, -⟩ <;> simp [h]

/-- What PUSH and END raise, their mode rule's errors included. -/
theorem admitted_raises {s : State} {r : Except Raise State} {e : Raise} (h : admitted s r = .error e)
    (hr : ∀ e', r = .error e' → s.cfgr.dir = .dec ∧ (e'.cause = .badLength ∨ e'.cause = .badCharacter)) :
    s.Raises e := by
  unfold admitted at h
  split at h
  · cases h
    exact .inl rfl
  · split at h
    · exact .inr (.inr (hr e h).symm)
    · cases h
      exact .inr (.inl ⟨rfl, by simpa using ‹¬s.ready = true›⟩)

/-- What a command can do (R326): restart by CFG, go idle by ABORT, be ignored in ERROR, write by its rule, or raise. -/
theorem exec_next {i : Instr} {s t : State} (h : exec i s = .next t) :
    (∃ c, i.cfg? = some c ∧ t = s.configure c) ∨ (i = .abort ∧ t = s.goIdle) ∨
      (i.cfg? = none ∧ i ≠ .abort ∧ s.phase = .error ∧ t = s) ∨ (∃ n, i = .lchk n ∧ s.phase = .active ∧ t = s) ∨
      (∃ u, i = .push u ∧ s.phase = .active ∧ s.ready = true ∧ pushRule u s = .ok t) ∨
      (i = .endOp ∧ s.phase = .active ∧ s.ready = true ∧ endRule s = .ok t) ∨
      (i.cfg? = none ∧ i ≠ .abort ∧ s.phase ≠ .error ∧ ∃ e, t = s.latch e ∧ s.Raises e) := by
  cases i with
  | lchk n =>
    rcases runUnlessError_next h with ⟨hp, rfl⟩ | ⟨hp, hr⟩ | ⟨hp, e, hr, rfl⟩
    · exact .inr (.inr (.inl ⟨rfl, by simp, hp, rfl⟩))
    · rcases lengthCheck_cases n s with ⟨ha, hl⟩ | hl | ⟨-, hl⟩ <;> rw [hl] at hr <;> cases hr
      exact .inr (.inr (.inr (.inl ⟨n, rfl, ha, rfl⟩)))
    · refine .inr (.inr (.inr (.inr (.inr (.inr ⟨rfl, by simp, hp, e, rfl, ?_⟩)))))
      rcases lengthCheck_cases n s with ⟨-, hl⟩ | hl | ⟨hd, hl⟩ <;> rw [hl] at hr <;> cases hr
      · exact .inl rfl
      · exact .inr (.inr ⟨.inl rfl, hd⟩)
  | push u =>
    rcases runUnlessError_next h with ⟨hp, rfl⟩ | ⟨hp, hr⟩ | ⟨hp, e, hr, rfl⟩
    · exact .inr (.inr (.inl ⟨rfl, by simp, hp, rfl⟩))
    · obtain ⟨ha, hrd, hr⟩ := admitted_ok hr
      exact .inr (.inr (.inr (.inr (.inl ⟨u, rfl, ha, hrd, hr⟩))))
    · refine .inr (.inr (.inr (.inr (.inr (.inr ⟨rfl, by simp, hp, e, rfl, ?_⟩)))))
      exact admitted_raises hr fun e' he => ⟨(pushRule_raises he).1, .inr (pushRule_raises he).2⟩
  | endOp =>
    rcases runUnlessError_next h with ⟨hp, rfl⟩ | ⟨hp, hr⟩ | ⟨hp, e, hr, rfl⟩
    · exact .inr (.inr (.inl ⟨rfl, by simp, hp, rfl⟩))
    · obtain ⟨ha, hrd, hr⟩ := admitted_ok hr
      exact .inr (.inr (.inr (.inr (.inr (.inl ⟨rfl, ha, hrd, hr⟩)))))
    · refine .inr (.inr (.inr (.inr (.inr (.inr ⟨rfl, by simp, hp, e, rfl, ?_⟩)))))
      exact admitted_raises hr fun e' he => endRule_raises he
  | abort => cases h; exact .inr (.inl ⟨rfl, rfl⟩)
  | _ => cases h; exact .inl ⟨_, rfl, rfl⟩

/-- An empty FIFO is READY when the parameters are admitted (R455). -/
theorem ready_of_empty {s : State} (h : s.params.Admitted) (hf : s.fifo = []) : s.ready = true := by
  unfold Params.Admitted at h
  unfold State.ready
  split <;> simp_all [maxEmit]

/-- An illegal word does nothing in ERROR and else raises ILLEGAL_COMMAND (R401, R405). -/
theorem execIllegal_eq (s : State) :
    execIllegal s = .next (if s.phase = .error then s else s.latch ⟨.illegalCommand, s.offset⟩) := by
  unfold execIllegal runUnlessError
  split <;> simp_all

end Sys2Proof.Machine
end

