-- ==== Sys2Proof/Laws/Window.lean ====
section
/-! SUPPORT. What the fetch of a host event can give, said once (R71, R75, R76, R79, R80), and what a read changes. -/

namespace Sys2Proof.Machine

open Sys2Proof Sys2Proof.Config

/-- A read changes nothing but the FIFO, and the FIFO only by losing its head to OUTDATA (R46, R76). -/
theorem readReg_state (r : WindowReg) (s : State) :
    (readReg r s).2 = s ∨ ∃ u us, s.fifo = u :: us ∧ (readReg r s).2 = { s with fifo := us } := by
  cases r <;> try exact .inl rfl
  cases h : s.fifo with
  | nil => exact .inl (by simp [readReg, readOutData, h])
  | cons u us => exact .inr ⟨u, us, rfl, by simp [readReg, readOutData, h]⟩

/-- What a host access can give: a refusal, a stuck access, a reply, a command word, or nothing. -/
theorem hostAccess_cases (a : HostAccess) (s : State) :
    (a.agent ≠ s.owner ∧ hostAccess a s = .settled (.refused .secondAgent)) ∨
    (a.agent = s.owner ∧ a.aligned = false ∧ hostAccess a s = .settled (.fault .accessStuck)) ∨
    (a.agent = s.owner ∧ a.aligned = true ∧ a.kind = .read ∧
      hostAccess a s = .settled (.next ((readReg (windowReg a.offset) s).2.reply (readReg (windowReg a.offset) s).1))) ∨
    (a.agent = s.owner ∧ a.aligned = true ∧ ∃ w, a.kind = .write w ∧ windowReg a.offset = .cmd ∧
      hostAccess a s = .command w s) ∨
    (a.agent = s.owner ∧ a.aligned = true ∧ ∃ w, a.kind = .write w ∧ windowReg a.offset ≠ .cmd ∧
      hostAccess a s = .settled (.next s)) := by
  by_cases ho : a.agent = s.owner
  · by_cases hal : a.aligned = true
    · cases hk : a.kind with
      | read => exact .inr (.inr (.inl ⟨ho, hal, rfl, by simp [hostAccess, ho, hal, hk]⟩))
      | write w =>
        by_cases hr : windowReg a.offset = .cmd
        · exact .inr (.inr (.inr (.inl ⟨ho, hal, w, rfl, hr, by simp [hostAccess, ho, hal, hk, hr]⟩)))
        · refine .inr (.inr (.inr (.inr ⟨ho, hal, w, rfl, hr, ?_⟩)))
          simp only [hostAccess, ho, hal, hk, ne_eq, not_true_eq_false, Bool.not_true, Bool.false_eq_true, if_false]
    · have hf : a.aligned = false := by simpa using hal
      exact .inr (.inl ⟨ho, hf, by simp [hostAccess, ho, hf]⟩)
  · exact .inl ⟨ho, by simp [hostAccess, ho]⟩

/-- The offset 0 is CMD (R71). -/
theorem windowReg_cmd : windowReg 0 = .cmd := rfl

/-- Only the offset 0 is CMD (R71). -/
theorem offset_eq_zero_of_cmd {o : BitVec 8} (h : windowReg o = .cmd) : o = 0 := by
  unfold windowReg at h
  split at h <;> try cases h
  rename_i hz
  exact BitVec.eq_of_toNat_eq (by simpa using hz)

/-- The write of a word to CMD is the command of that word (R47). -/
theorem fetchEvent_cmdWrite {s : State} {w : Word} {es : List HostEvent} (h : s.events = s.cmdWrite w :: es) :
    fetchEvent s = .command w { s with events := es } := by
  simp only [fetchEvent, h, State.cmdWrite]
  simp only [hostAccess, HostAccess.aligned, windowReg_cmd]
  simp

/-- Executing a word that decodes is executing its command (R336). -/
theorem execWord_of_decode {w : Word} {i : Instr} (h : decode w = .ok i) (s : State) : execWord w s = exec i s := by
  simp [execWord, h]

/-- Executing an illegal word (R336). -/
theorem execWord_of_illegal {w : Word} {r : DecodeReject} (h : decode w = .error r) (s : State) :
    execWord w s = execIllegal s := by
  simp [execWord, h]

/-- A command word always has a next state (R336, R404). -/
theorem execWord_total (w : Word) (s : State) : ∃ t, execWord w s = .next t := by
  cases h : decode w with
  | ok i => rw [execWord_of_decode h]; exact exec_total i s
  | error r => rw [execWord_of_illegal h, execIllegal_eq]; exact ⟨_, rfl⟩

end Sys2Proof.Machine
end

