-- ==== Sys2Proof/Laws/Invariant.lean ====
section
/-! SUPPORT. Each shared operation keeps `State.Inv` (R50): the host's record, CFG, ABORT, reset, the error latch, a read
of the window, a block that goes on and a block that completes. -/

namespace Sys2Proof.Machine

open Sys2Proof Sys2Proof.Config

/-- What the host still does and has read is no part of the invariant. -/
theorem State.Inv.withHost {s : State} (h : s.Inv) (es : List HostEvent) (rs : List Word) :
    State.Inv { s with events := es, replies := rs } := by
  obtain ⟨h1, h2, h3, h4, h5, h6, h7, h8, h9, h10, h11, h12⟩ := h
  exact ⟨h1, h2, h3, h4, h5, h6, h7, h8, h9, h10, h11, h12⟩

/-- Every block holds at least one unit (R150). -/
theorem blockLimit_pos (p : Params) (c : Cfg) : 0 < blockLimit p c := by
  unfold blockLimit
  cases c.dir <;> simp only
  · cases c.codec <;> decide
  · cases c.codec <;> first | decide | (simp only [blockSyms]; cases p.b36m <;> decide)

/-- No block is longer than 8 units (R150). -/
theorem blockLimit_le (p : Params) (c : Cfg) : blockLimit p c ≤ 8 := by
  unfold blockLimit
  split
  · exact (blockBytes_le _).trans (by omega)
  · exact blockSyms_le _ _

theorem fifoFits_of_empty {s : State} (h : s.fifo = []) : s.FifoFits := by
  unfold State.FifoFits
  split <;> simp [h]

/-- READY leaves room for 8 units (R44, R156). -/
theorem fifoFits_of_emit {s t : State} (hr : s.ready = true) (hp : t.params = s.params) (us : List Byte)
    (hu : us.length ≤ 8) (hf : t.fifo = s.fifo ++ us) : t.FifoFits := by
  unfold State.FifoFits State.ready at *
  rw [hp, hf, List.length_append]
  cases hd : s.params.outDepth with
  | units n =>
    rw [hd] at hr
    have hn : s.fifo.length + maxEmit ≤ n := of_decide_eq_true hr
    simp only [maxEmit] at hn ⊢
    omega
  | unbounded => trivial

/-- CFG with a legal configuration keeps the invariant (R320). -/
theorem State.Inv.configure {s : State} (h : s.Inv) (c : Cfg) (hc : c.legal = true) : (s.configure c).Inv := by
  refine ⟨h.admitted, hc, ?_, ?_, ?_, ?_, ?_, ?_, ?_, ?_, ?_, fifoFits_of_empty rfl⟩ <;>
    simp [State.configure, State.clearOperation]
  exact blockLimit_pos _ _

/-- ABORT keeps the invariant (R324). -/
theorem State.Inv.goIdle {s : State} (h : s.Inv) : s.goIdle.Inv := by
  refine ⟨h.admitted, h.cfgrLegal, ?_, ?_, ?_, ?_, ?_, ?_, ?_, ?_, ?_, fifoFits_of_empty rfl⟩ <;>
    simp [State.goIdle, State.clearOperation]
  exact blockLimit_pos _ _

/-- Reset keeps the invariant (R450). -/
theorem State.Inv.resetInstance {s : State} (h : s.Inv) : s.resetInstance.Inv := by
  refine ⟨h.admitted, rfl, ?_, ?_, ?_, ?_, ?_, ?_, ?_, ?_, ?_, fifoFits_of_empty rfl⟩ <;>
    simp [State.resetInstance, State.resetWith]
  exact blockLimit_pos _ _

/-- The error latch keeps the invariant (R404). -/
theorem State.Inv.latch {s : State} (h : s.Inv) (e : Raise) (he : e.cause ≠ .none) : (s.latch e).Inv := by
  obtain ⟨h1, h2, h3, h4, h5, h6, h7, h8, h9, h10, h11, h12⟩ := h
  refine ⟨h1, h2, ?_, ?_, h5, h6, h7, h8, h9, ?_, ?_, h12⟩ <;> simp [he]

/-- A read of the window keeps the invariant (R76). -/
theorem State.Inv.readReg {s : State} (h : s.Inv) (r : WindowReg) : (readReg r s).2.Inv := by
  rcases readReg_state r s with he | ⟨u, us, hf, he⟩
  · rw [he]
    exact h
  · rw [he]
    obtain ⟨h1, h2, h3, h4, h5, h6, h7, h8, h9, h10, h11, h12⟩ := h
    refine ⟨h1, h2, h3, h4, h5, h6, h7, h8, h9, fun hp => ?_, h11, ?_⟩
    · have := (h10 hp).2.2.2.2.1
      rw [hf] at this
      cases this
    · simp only [State.FifoFits] at *
      split <;> simp_all
      omega

/-- A block that goes on keeps the invariant when its count, accumulator and padding stay in range. -/
theorem State.Inv.ofHold {s t : State} (h : s.Inv) (ha : s.phase = .active) (hr : s.ready = true)
    (he : PushEffect s t) (hb : t.blk.toNat = s.blk.toNat + 1)
    (hlim : s.blk.toNat + 1 < blockLimit s.params s.cfgr)
    (hacc : t.acc.toNat < unitRadix s.cfgr ^ (s.blk.toNat + 1)) (hcl : s.closed = false) (htc : t.closed = s.closed)
    (hpad : t.padCnt ≠ 0 → s.cfgr.dir = .dec ∧ padded s.cfgr.codec = true ∧ t.padCnt.toNat ≤ s.blk.toNat + 1 ∧
      s.blk.toNat + 1 - t.padCnt.toNat ∈ sigSet s.cfgr.codec) : t.Inv := by
  have hne : t.blk ≠ 0 := by
    intro e
    rw [e] at hb
    simp at hb
  have htp : t.phase = .active := he.phase.trans ha
  obtain ⟨us, hu, hf, -⟩ := he.emits
  refine ⟨he.params ▸ h.admitted, he.cfgr ▸ h.cfgrLegal, ?_, ?_, fun e => absurd e hne, ?_, ?_, ?_, ?_, ?_, ?_,
    fifoFits_of_emit hr he.params us hu hf⟩
  · rw [he.cause, he.phase]
    exact h.causeIff
  · rw [he.errOff, he.phase]
    exact h.errOffZero
  · rw [he.params, he.cfgr, hb]
    exact hlim
  · rw [he.cfgr, hb]
    exact hacc
  · rw [htc, hcl]
    simp
  · rw [he.cfgr, hb]
    exact hpad
  · simp [htp]
  · simp [htp]

/-- A PUSH that leaves the block empty keeps the invariant (R163). -/
theorem State.Inv.ofClose {s t : State} (h : s.Inv) (ha : s.phase = .active) (hr : s.ready = true)
    (he : PushEffect s t) (hb : t.blk = 0) (hacc : t.acc = 0) (hpad : t.padCnt = 0)
    (hcl : t.closed = true → s.cfgr.dir = .dec ∧ padded s.cfgr.codec = true) : t.Inv := by
  have htp : t.phase = .active := he.phase.trans ha
  obtain ⟨us, hu, hf, -⟩ := he.emits
  refine ⟨he.params ▸ h.admitted, he.cfgr ▸ h.cfgrLegal, ?_, ?_, fun _ => ⟨hacc, hpad⟩, ?_, ?_, ?_, fun e => absurd hpad e,
    ?_, ?_, fifoFits_of_emit hr he.params us hu hf⟩
  · rw [he.cause, he.phase]
    exact h.causeIff
  · rw [he.errOff, he.phase]
    exact h.errOffZero
  · rw [hb]
    exact blockLimit_pos _ _
  · rw [hb, hacc]
    simp
  · rw [he.cfgr]
    exact fun e => ⟨hb, hcl e⟩
  · simp [htp]
  · simp [htp]

/-- An END that leaves the block empty keeps the invariant (R163, R323). -/
theorem State.Inv.ofEnd {s t : State} (h : s.Inv) (ha : s.phase = .active) (hr : s.ready = true) (he : EndEffect s t)
    (hb : t.blk = 0) (hacc : t.acc = 0) (hpad : t.padCnt = 0) : t.Inv := by
  have htp := he.phase
  obtain ⟨us, hu, hf, -⟩ := he.emits
  have hfit : s.EncodeBlockFits := by
    intro hd _
    have := h.blkRange
    simp only [blockLimit, hd] at this
    omega
  refine ⟨he.params ▸ h.admitted, he.cfgr ▸ h.cfgrLegal, ?_, ?_, fun _ => ⟨hacc, hpad⟩, ?_, ?_, ?_, fun e => absurd hpad e,
    ?_, fun _ => hb, fifoFits_of_emit hr he.params us (hu hfit) hf⟩
  · rw [he.cause, htp]
    have := h.causeIff
    rw [ha] at this
    simpa using this
  · intro _
    rw [he.errOff]
    exact h.errOffZero (by simp [ha])
  · rw [hb]
    exact blockLimit_pos _ _
  · rw [hb, hacc]
    simp
  · rw [he.cfgr, he.closed]
    exact fun e => ⟨hb, (h.closedBlock e).2⟩
  · simp [htp]

/-- CLOSED is 0 in every encode mode (R42). -/
theorem State.Inv.closed_of_enc {s : State} (h : s.Inv) (hd : s.cfgr.dir = .enc) : s.closed = false := by
  by_contra hc
  have := (h.closedBlock (by simpa using hc)).2.1
  rw [hd] at this
  cases this

/-- CLOSED is 0 in every mode of a codec without padding (R42). -/
theorem State.Inv.closed_of_unpadded {s : State} (h : s.Inv) (hp : padded s.cfgr.codec = false) : s.closed = false := by
  by_contra hc
  have := (h.closedBlock (by simpa using hc)).2.2
  rw [hp] at this
  cases this

/-- PADCNT is 0 in every encode mode (R40). -/
theorem State.Inv.padCnt_of_enc {s : State} (h : s.Inv) (hd : s.cfgr.dir = .enc) : s.padCnt = 0 := by
  by_contra hc
  have := (h.padding hc).1
  rw [hd] at this
  cases this

/-- PADCNT is 0 in every mode of a codec without padding (R40). -/
theorem State.Inv.padCnt_of_unpadded {s : State} (h : s.Inv) (hp : padded s.cfgr.codec = false) : s.padCnt = 0 := by
  by_contra hc
  have := (h.padding hc).2.1
  rw [hp] at this
  cases this

end Sys2Proof.Machine
end

