-- ==== Sys2Proof/Laws/Operation.lean ====
section
/-! SUPPORT. What the host's view of an operation can do, said once: a CFG starts it, a command that is neither CFG nor
ABORT advances it by the units it emits, and the end fixes the result (R330, R331). -/

namespace Sys2Proof.Machine

open Sys2Proof Sys2Proof.Config

/-! The small lemmas of Progress. -/

@[simp] theorem Progress.result_noOperation : Progress.noOperation.result = .noResult := rfl

@[simp] theorem Progress.result_running (us : List Byte) : (Progress.running us).result = .noResult := rfl

@[simp] theorem Progress.result_ended (r : OpResult) : (Progress.ended r).result = r := rfl

@[simp] theorem Progress.cancel_running (us : List Byte) : (Progress.running us).cancel = .noOperation := rfl

@[simp] theorem Progress.cancel_ended (r : OpResult) : (Progress.ended r).cancel = .ended r := rfl

@[simp] theorem Progress.advance_ended (r : OpResult) (new : List Byte) (t : State) :
    (Progress.ended r).advance new t = .ended r := rfl

/-- A command that leaves PHASE in ACTIVE ends nothing. -/
theorem Progress.advance_active {t : State} (h : t.phase = .active) (us new : List Byte) :
    (Progress.running us).advance new t = .running (us ++ new) := by simp [Progress.advance, h]

/-- The command that leaves PHASE in DONE fixes the units emitted as the result. -/
theorem Progress.advance_done {t : State} (h : t.phase = .done) (us new : List Byte) :
    (Progress.running us).advance new t = .ended (.units (us ++ new)) := by simp [Progress.advance, resultOf, h]

/-- The command that leaves PHASE in ERROR fixes the error as the result, and no unit (R410). -/
theorem Progress.advance_error {t : State} (h : t.phase = .error) (us new : List Byte) :
    (Progress.running us).advance new t = .ended (resultOf [] t) := by
  cases hc : t.cause <;> simp [Progress.advance, resultOf, h, hc]

/-! A word's effect on the operation. -/

/-- A legal CFG starts an operation with no unit emitted, whatever came before (R320, R330). -/
theorem Progress.next_cfg {w : Word} {i : Instr} {c : Cfg} (hd : decode w = .ok i) (hc : i.cfg? = some c) (p : Progress)
    (s t : State) : p.next w s t = .running [] := by simp [Progress.next, hd, hc]

/-- Every word but CFG and ABORT advances the operation by the units it emits. -/
theorem Progress.next_of_not_restart {w : Word} (h : ∀ i, decode w = .ok i → i.restarts = false) (p : Progress)
    (s t : State) : p.next w s t = p.advance (emittedBy s t) t := by
  unfold Progress.next
  split
  · rename_i i hd
    have hr := h i hd
    simp only [Instr.restarts, Bool.or_eq_false_iff, beq_eq_false_iff_ne] at hr
    rw [if_neg (by simp [hr.1]), if_neg hr.2]
  · rfl

theorem emittedBy_of_append {s t : State} {us : List Byte} (h : t.fifo = s.fifo ++ us) : emittedBy s t = us := by
  simp [emittedBy, h]

/-- What a word but CFG and ABORT leaves: its units at the FIFO's tail, counted in OUTCNT (R156), and a phase other than
IDLE where the phase before was. -/
theorem execWord_emits {w : Word} {s t : State} (h : ∀ i, decode w = .ok i → i.restarts = false)
    (he : execWord w s = .next t) :
    ∃ us : List Byte, t.fifo = s.fifo ++ us ∧ t.outCnt = s.outCnt + BitVec.ofNat 32 us.length ∧
      (s.phase ≠ .idle → t.phase ≠ .idle) := by
  cases hd : decode w with
  | error r =>
    rw [execWord_of_illegal hd, execIllegal_eq] at he
    cases he
    split
    · exact ⟨[], by simp, by simp, id⟩
    · exact ⟨[], by simp [State.latch], by simp [State.latch], fun _ => by simp [State.latch]⟩
  | ok i =>
    have hr := h i hd
    simp only [Instr.restarts, Bool.or_eq_false_iff, beq_eq_false_iff_ne] at hr
    rw [execWord_of_decode hd] at he
    rcases exec_next he with ⟨c, hc, -⟩ | ⟨rfl, -⟩ | ⟨-, -, -, rfl⟩ | ⟨n, -, -, rfl⟩ | ⟨u, -, -, -, hp⟩ | ⟨-, -, -, hp⟩ |
      ⟨-, -, -, e, rfl, -⟩
    · simp [hc] at hr
    · simp at hr
    · exact ⟨[], by simp, by simp, id⟩
    · exact ⟨[], by simp, by simp, id⟩
    · have hp := pushRule_effect hp
      obtain ⟨us, -, hf, ho⟩ := hp.emits
      exact ⟨us, hf, ho, by rw [hp.phase]; exact id⟩
    · have hp := endRule_effect hp
      obtain ⟨us, -, hf, ho⟩ := hp.emits
      exact ⟨us, hf, ho, by simp [hp.phase]⟩
    · exact ⟨[], by simp [State.latch], by simp [State.latch], fun _ => by simp [State.latch]⟩

/-! A draining host. -/

/-- One word of a draining host's run. -/
theorem operate_cons {w : Word} {s t : State} (h : execWord w s = .next t) (ws : List Word) (p : Progress) :
    operate (w :: ws) p s = operate ws (p.next w s t) { t with fifo := [] } := by
  simp [operate, execWatched, h]

/-- One word of an operation that goes on: its units join those emitted since the CFG. -/
theorem operate_cons_running {w : Word} {s t : State} {new : List Byte} (hr : ∀ i, decode w = .ok i → i.restarts = false)
    (h : execWord w s = .next t) (ha : t.phase = .active) (hf : t.fifo = s.fifo ++ new) (ws : List Word) (us : List Byte) :
    operate (w :: ws) (.running us) s = operate ws (.running (us ++ new)) { t with fifo := [] } := by
  rw [operate_cons h, Progress.next_of_not_restart hr, emittedBy_of_append hf, Progress.advance_active ha]

/-- A draining host's run is that of its parts. -/
theorem operate_append (vs ws : List Word) {p q : Progress} {s t : State} (h : operate vs p s = .next (q, t)) :
    operate (vs ++ ws) p s = operate ws q t := by
  induction vs generalizing p s with
  | nil => cases h; rfl
  | cons v vs ih =>
    obtain ⟨s', hs⟩ := execWord_total v s
    rw [operate_cons hs] at h
    rw [List.cons_append, operate_cons hs]
    exact ih h

/-- A draining host's run never stops: every word has a next state (R404). -/
theorem operate_total (ws : List Word) (p : Progress) (s : State) : ∃ q t, operate ws p s = .next (q, t) := by
  induction ws generalizing p s with
  | nil => exact ⟨p, s, rfl⟩
  | cons w ws ih =>
    obtain ⟨t, ht⟩ := execWord_total w s
    rw [operate_cons ht]
    exact ih _ _

end Sys2Proof.Machine
end

