-- ==== Sys2Proof/Laws/PerInstr.lean ====
section
/-! SUPPORT. Statements about every command, one lemma per constructor of Instr. Family `OpField`: the word of a command
holds, in w[31:28], the OP of its row in the opcode map (R101, R103), and the command is well formed (R104). -/

namespace Sys2Proof.Laws

open Sys2Proof

/-- The OP of a command in the opcode map (R103). -/
def opNumber : Instr → BitVec 4
  | .lchk _ => 2
  | .push _ => 3
  | .endOp => 4
  | .abort => 5
  | .cfgB16Enc => 1
  | .cfgB16Dec => 1
  | .cfgB32Enc => 1
  | .cfgB32EncOptpad => 1
  | .cfgB32Dec => 1
  | .cfgB32DecOptpad => 1
  | .cfgB64Enc => 1
  | .cfgB64EncOptpad => 1
  | .cfgB64Dec => 1
  | .cfgB64DecOptpad => 1
  | .cfgB85Enc => 1
  | .cfgB85EncFoldz => 1
  | .cfgB85Dec => 1
  | .cfgB85DecFoldz => 1
  | .cfgB36Enc => 1
  | .cfgB36Dec => 1

/-- The OP field of a concatenation is its leading four bits. -/
theorem opField_append (op : BitVec 4) (rest : BitVec 28) : opField (op ++ rest) = op := by
  apply BitVec.eq_of_toNat_eq
  simp only [opField, BitVec.extractLsb'_toNat, BitVec.toNat_append, Nat.shiftRight_eq_div_pow]
  rw [← Nat.shiftLeft_add_eq_or_of_lt rest.isLt, Nat.shiftLeft_eq]
  have h1 := rest.isLt
  have h2 := op.isLt
  omega

end Sys2Proof.Laws

/-- The word of the command has its OP, and the command is well formed. -/
def Sys2Proof.Laws.OpField.Statement (i : Sys2Proof.Instr) : Prop :=
  Sys2Proof.opField (Sys2Proof.encode i) = Sys2Proof.Laws.opNumber i ∧ i.WellFormed = true

namespace Sys2Proof.Laws.OpField

open Sys2Proof

theorem cfgB16Enc : Statement .cfgB16Enc := ⟨by decide, by decide⟩
theorem cfgB16Dec : Statement .cfgB16Dec := ⟨by decide, by decide⟩
theorem cfgB32Enc : Statement .cfgB32Enc := ⟨by decide, by decide⟩
theorem cfgB32EncOptpad : Statement .cfgB32EncOptpad := ⟨by decide, by decide⟩
theorem cfgB32Dec : Statement .cfgB32Dec := ⟨by decide, by decide⟩
theorem cfgB32DecOptpad : Statement .cfgB32DecOptpad := ⟨by decide, by decide⟩
theorem cfgB64Enc : Statement .cfgB64Enc := ⟨by decide, by decide⟩
theorem cfgB64EncOptpad : Statement .cfgB64EncOptpad := ⟨by decide, by decide⟩
theorem cfgB64Dec : Statement .cfgB64Dec := ⟨by decide, by decide⟩
theorem cfgB64DecOptpad : Statement .cfgB64DecOptpad := ⟨by decide, by decide⟩
theorem cfgB85Enc : Statement .cfgB85Enc := ⟨by decide, by decide⟩
theorem cfgB85EncFoldz : Statement .cfgB85EncFoldz := ⟨by decide, by decide⟩
theorem cfgB85Dec : Statement .cfgB85Dec := ⟨by decide, by decide⟩
theorem cfgB85DecFoldz : Statement .cfgB85DecFoldz := ⟨by decide, by decide⟩
theorem cfgB36Enc : Statement .cfgB36Enc := ⟨by decide, by decide⟩
theorem cfgB36Dec : Statement .cfgB36Dec := ⟨by decide, by decide⟩

theorem lchk (len28 : BitVec 28) : Statement (.lchk len28) := ⟨opField_append 2 len28, rfl⟩

theorem push (unit : Byte) : Statement (.push unit) := by
  refine ⟨?_, rfl⟩
  apply BitVec.eq_of_toNat_eq
  have h := unit.isLt
  simp only [encode, opField, BitVec.extractLsb'_toNat, BitVec.toNat_append, Nat.shiftRight_eq_div_pow]
  rw [← Nat.shiftLeft_add_eq_or_of_lt h]
  have hop : (3#4).toNat <<< 20 ||| (0#20).toNat = 3145728 := by decide
  have hnum : (opNumber (.push unit)).toNat = 3 := rfl
  rw [hop, hnum, Nat.shiftLeft_eq]
  omega

theorem endOp : Statement .endOp := ⟨by decide, by decide⟩
theorem abort : Statement .abort := ⟨by decide, by decide⟩

end Sys2Proof.Laws.OpField
end

