-- ==== Sys2Proof/Laws/Symbols.lean ====
section
/-! SUPPORT. Symbols and emitted units in the terms the statements use: `charsetSymbol` for the encode tables (R130), the
class of a symbol of the charset (R140), and the lists of units the mode rules emit (R154, R155, R159, R161). -/

namespace Sys2Proof.Machine

open Sys2Proof Sys2Proof.Config

/-! Symbols. -/

/-- No charset lists a symbol twice (R131). -/
theorem charset_nodup (c : Codec) : (charset c).Nodup := by cases c <;> decide

/-- An encode table holds the charset (R130). -/
theorem symbolOf_eq_charsetSymbol (c : Codec) (hc : c ≠ .b85) (d : Nat) (h : d < (charset c).length) :
    symbolOf c d = charsetSymbol c d := by
  rw [symbolOf_table _ _ hc, charsetSymbol, List.getD, List.getD, List.getElem?_eq_getElem h]
  rfl

/-- The index of a symbol of the charset (R130). -/
theorem idxOf?_charsetSymbol (c : Codec) (d : Nat) (h : d < (charset c).length) :
    (charset c).idxOf? (charsetSymbol c d) = some d := by
  rw [charsetSymbol, List.getD, List.getElem?_eq_getElem h, Option.getD_some, List.idxOf?,
    List.findIdx?_eq_some_iff_getElem]
  refine ⟨h, by simp, fun j hj => ?_⟩
  have := (List.Nodup.getElem_inj_iff (charset_nodup c) (hi := by omega) (hj := h)).not.mpr (Nat.ne_of_lt hj)
  simpa using this

/-- A codec's charset holds a symbol for each digit (R131). -/
theorem radix_le_charset_length (c : Codec) (hc : c ≠ .b85) : radix c ≤ (charset c).length := by
  rw [charset_length]
  cases c <;> simp_all [radix]

/-- The symbol of a digit is of that digit's class (R130, R140). -/
theorem classOf_charsetSymbol (c : Codec) (hc : c ≠ .b85) (d : Nat) (h : d < radix c) :
    classOf c (charsetSymbol c d) = .digit d := by
  have hi := idxOf?_charsetSymbol c d (h.trans_le (radix_le_charset_length c hc))
  cases c with
  | b16 => rw [classOf_b16, hi]
  | b32 => rw [classOf_b32, hi]; exact if_neg (by simp only [radix] at h; omega)
  | b64 => rw [classOf_b64, hi]; exact if_neg (by simp only [radix] at h; omega)
  | b85 => exact absurd rfl hc
  | b36 => rw [classOf_b36, hi]

/-- A symbol outside the charset is Invalid (R140). -/
theorem classOf_of_not_mem (c : Codec) (hc : c ≠ .b85) (u : Byte) (h : u ∉ charset c) : classOf c u = .invalid := by
  have hi := List.idxOf?_eq_none_iff.mpr h
  cases c with
  | b16 => rw [classOf_b16, hi]
  | b32 => rw [classOf_b32, hi]
  | b64 => rw [classOf_b64, hi]
  | b85 => exact absurd rfl hc
  | b36 => rw [classOf_b36, hi]

theorem classOf_b32_pad : classOf .b32 0x3D#8 = .pad := by decide

theorem classOf_b64_pad : classOf .b64 0x3D#8 = .pad := by decide

/-- A symbol of a padded charset other than `'='` is a digit (R140). -/
theorem classOf_data (c : Codec) (hc : padded c = true) (u : Byte) (h : u ∈ charset c) (hu : u ≠ 0x3D#8) :
    ∃ d, d < radix c ∧ classOf c u = .digit d := by
  obtain ⟨d, hd, rfl⟩ := List.getElem_of_mem h
  have hsym : (charset c)[d] = charsetSymbol c d := by
    rw [charsetSymbol, List.getD, List.getElem?_eq_getElem hd]
    rfl
  have hlt : d < radix c := by
    by_contra hge
    rw [charset_length] at hd
    cases c <;> simp only [padded, Bool.false_eq_true] at hc <;> simp only [radix] at hge hd
    · obtain rfl : d = 32 := by omega
      exact hu rfl
    · obtain rfl : d = 64 := by omega
      exact hu rfl
  refine ⟨d, hlt, hsym ▸ classOf_charsetSymbol c ?_ d hlt⟩
  rintro rfl
  simp [padded] at hc

/-- The digit of a Base85 symbol (R139). -/
theorem classOf_b85_digit (d : Nat) (u : Byte) (hd : d < 85) (hu : u.toNat = d + 0x21) : classOf .b85 u = .digit d := by
  rw [classOf_b85, if_neg (by omega)]
  congr 1
  omega

/-! The units the mode rules emit. -/

theorem bitSyms_b32 : bitSyms .b32 = 8 := by decide

theorem bitSyms_b64 : bitSyms .b64 = 4 := by decide

/-- The first `k` digits of a Base32 block (R154). -/
theorem bitSymbols_b32 (v k : Nat) :
    bitSymbols .b32 v k = (List.range k).map fun i => charsetSymbol .b32 (v / 32 ^ (7 - i) % 32) := by
  refine List.map_congr_left fun i _ => ?_
  have hl : (charset .b32).length = 33 := charset_length .b32
  rw [bitDigit_eq, bitSyms_b32, symbolOf_eq_charsetSymbol _ (by simp) _
    (by rw [hl]; exact (Nat.mod_lt _ (by decide)).trans (by decide))]
  rfl

/-- The first `k` digits of a Base64 block (R154). -/
theorem bitSymbols_b64 (v k : Nat) :
    bitSymbols .b64 v k = (List.range k).map fun i => charsetSymbol .b64 (v / 64 ^ (3 - i) % 64) := by
  refine List.map_congr_left fun i _ => ?_
  have hl : (charset .b64).length = 65 := charset_length .b64
  rw [bitDigit_eq, bitSyms_b64, symbolOf_eq_charsetSymbol _ (by simp) _
    (by rw [hl]; exact (Nat.mod_lt _ (by decide)).trans (by decide))]
  rfl

/-- The first `k` of `m` digits of a Base36 block (R155). -/
theorem radixSymbols_b36 (m v k : Nat) :
    radixSymbols .b36 m v k = (List.range k).map fun i => charsetSymbol .b36 (v / 36 ^ (m - 1 - i) % 36) := by
  refine List.map_congr_left fun i _ => ?_
  have hl : (charset .b36).length = 36 := charset_length .b36
  rw [symbolOf_eq_charsetSymbol _ (by simp) _ (by rw [hl]; exact Nat.mod_lt _ (by decide))]
  rfl

/-- The first `k` digits of a Base85 block (R155, R261). -/
theorem radixSymbols_b85 (v k : Nat) :
    radixSymbols .b85 5 v k = (List.range k).map fun i => BitVec.ofNat 8 (v / 85 ^ (4 - i) % 85 + 0x21) := rfl

/-- The first `k` bytes of a block (R159). -/
theorem blockBytesOf_eq (n v k : Nat) :
    blockBytesOf n v k = (List.range k).map fun j => BitVec.ofNat 8 (v / 256 ^ (n - 1 - j)) :=
  List.map_congr_left fun _ _ => byteOf_eq _ _ _

/-- Only the low 32 bits of a group's value reach its bytes (R161). -/
theorem blockBytesOf_mod (v k : Nat) : blockBytesOf 4 (v % 2 ^ 32) k = groupValueBytes v k := by
  rw [blockBytesOf_eq]
  refine List.map_congr_left fun j _ => BitVec.eq_of_toNat_eq ?_
  simp only [BitVec.toNat_ofNat]
  have hj : 3 - j = 4 - 1 - j := by omega
  have he : 4 - 1 - j ≤ 3 := by omega
  rw [hj]
  generalize 4 - 1 - j = e at he
  have : e = 0 ∨ e = 1 ∨ e = 2 ∨ e = 3 := by omega
  rcases this with rfl | rfl | rfl | rfl <;> omega

/-- A group out of range raises under OVF_POLICY = ERROR (R161). -/
theorem overflows_of_gt {p : Params} {v : Nat} (h : 0xFFFFFFFF < v) (ho : p.ovf = .error) : overflows p v = true := by
  simp [overflows, groupMax, h, ho]

/-- A group in range, or any group under WRAP, does not (R161). -/
theorem overflows_of_le {p : Params} {v : Nat} (h : v ≤ 0xFFFFFFFF ∨ p.ovf = .wrap) : overflows p v = false := by
  rcases h with h | h
  · have : ¬0xFFFFFFFF < v := by omega
    simp [overflows, groupMax, this]
  · simp [overflows, h]

/-- END of a radix decode mode, by the group's size and filled value (R265, R294). -/
theorem endRadixDec_eq {c : Codec} {s : State} {m g v : Nat} (hm : blockSyms s.params c = m) (hg : s.blk.toNat = g)
    (hv : radixFill (radix c) m s.acc.toNat g = v) :
    endRadixDec c s = if g = 0 then .ok s.finish
      else if g ∉ groupSet (radix c) m then .error ⟨.badLength, s.offset⟩
      else if overflows s.params v then .error ⟨.badCharacter, s.offset - 1⟩
      else .ok ((s.emitAll (blockBytesOf 4 (v % 2 ^ 32) (groupBytes (radix c) m g))).closeBlock.finish) := by
  subst hm hg hv
  rfl

/-! PUSH and END where the drive loop admits them. -/

theorem exec_push_of_admits {s : State} {c : Codec} {d : Dir} (h : s.Admits c d) (u : Byte) :
    exec (.push u) s = commit s (pushRule u s) := exec_push_of_ready h.active h.ready

theorem exec_end_of_admits {s : State} {c : Codec} {d : Dir} (h : s.Admits c d) :
    exec .endOp s = commit s (endRule s) := exec_end_of_ready h.active h.ready

end Sys2Proof.Machine
end

