-- ==== Sys2Proof/Tests/Slice0.lean ====
section
/-! SUPPORT. The model's own tests: the WellFormed checks refuse, words written out from R101 to R104 decode, one step of
each command gives what the spec's examples give, and each statement's hypotheses are met by a concrete state. The source
of an expected value is named in its comment. -/

namespace Sys2Proof.Tests

open Sys2Proof Sys2Proof.Machine Sys2Proof.Config

/-! WellFormed: each check of R104 refuses an ill-formed term. -/

theorem test_codec_5_is_refused : CfgFields.legal ⟨5, false, false, false⟩ = false := by decide
theorem test_codec_7_is_refused : CfgFields.legal ⟨7, true, false, false⟩ = false := by decide
theorem test_optpad_on_b16_is_refused : CfgFields.legal ⟨0, true, true, false⟩ = false := by decide
theorem test_optpad_on_b36_is_refused : Cfg.legal ⟨.b36, .dec, true, false⟩ = false := by decide
theorem test_foldz_on_b64_is_refused : Cfg.legal ⟨.b64, .enc, false, true⟩ = false := by decide
theorem test_optpad_on_b64_is_accepted : Cfg.legal ⟨.b64, .enc, true, false⟩ = true := by decide

/-! Decoding: one word of each row, written out from the formats of R101. -/

theorem test_decode_cfg_b16_enc : decode 0b00010000000000000000000000000000 = .ok .cfgB16Enc := by decide
theorem test_decode_cfg_b16_dec : decode 0b00010000000000000000000000001000 = .ok .cfgB16Dec := by decide
theorem test_decode_cfg_b32_enc : decode 0b00010000000000000000000000000001 = .ok .cfgB32Enc := by decide
theorem test_decode_cfg_b32_enc_optpad : decode 0b00010000000000000000000000010001 = .ok .cfgB32EncOptpad := by decide
theorem test_decode_cfg_b32_dec : decode 0b00010000000000000000000000001001 = .ok .cfgB32Dec := by decide
theorem test_decode_cfg_b32_dec_optpad : decode 0b00010000000000000000000000011001 = .ok .cfgB32DecOptpad := by decide
theorem test_decode_cfg_b64_enc : decode 0b00010000000000000000000000000010 = .ok .cfgB64Enc := by decide
theorem test_decode_cfg_b64_enc_optpad : decode 0b00010000000000000000000000010010 = .ok .cfgB64EncOptpad := by decide
theorem test_decode_cfg_b64_dec : decode 0b00010000000000000000000000001010 = .ok .cfgB64Dec := by decide
theorem test_decode_cfg_b64_dec_optpad : decode 0b00010000000000000000000000011010 = .ok .cfgB64DecOptpad := by decide
theorem test_decode_cfg_b85_enc : decode 0b00010000000000000000000000000011 = .ok .cfgB85Enc := by decide
theorem test_decode_cfg_b85_enc_foldz : decode 0b00010000000000000000000000100011 = .ok .cfgB85EncFoldz := by decide
theorem test_decode_cfg_b85_dec : decode 0b00010000000000000000000000001011 = .ok .cfgB85Dec := by decide
theorem test_decode_cfg_b85_dec_foldz : decode 0b00010000000000000000000000101011 = .ok .cfgB85DecFoldz := by decide
theorem test_decode_cfg_b36_enc : decode 0b00010000000000000000000000000100 = .ok .cfgB36Enc := by decide
theorem test_decode_cfg_b36_dec : decode 0b00010000000000000000000000001100 = .ok .cfgB36Dec := by decide
theorem test_decode_lchk : decode 0b00100000000000000000000000000111 = .ok (.lchk 0x0000007) := by decide
theorem test_decode_push : decode 0b00110000000000000000000001100110 = .ok (.push 0x66) := by decide
theorem test_decode_end_op : decode 0b01000000000000000000000000000000 = .ok .endOp := by decide
theorem test_decode_abort : decode 0b01010000000000000000000000000000 = .ok .abort := by decide
theorem test_decode_zero_is_illegal : decode 0 = .error .reservedOp := by decide
theorem test_decode_op6_is_illegal : decode 0x60000000 = .error .reservedOp := by decide
theorem test_decode_cfg_bit6_is_illegal : decode 0x10000040 = .error .illegalCfg := by decide
theorem test_decode_push_bit8_is_illegal : decode 0x30000100 = .error .pushReservedBits := by decide
theorem test_decode_end_bit0_is_illegal : decode 0x40000001 = .error .endReservedBits := by decide
theorem test_decode_abort_bit27_is_illegal : decode 0x58000000 = .error .abortReservedBits := by decide

/-! One step of each command. -/

/-- An ACTIVE state in configuration `c` with `blk` units of a block held in `acc`, at offset `blk`. -/
def busy (c : Cfg) (blk : BitVec 4) (acc : AccWord) : State :=
  { State.reset with cfgr := c, phase := .active, acc := acc, blk := blk, offset := blk.setWidth 32 }

/-- A configuration without options. -/
def plain (c : Codec) (d : Dir) : Cfg := ⟨c, d, false, false⟩

/-- The codes of a text (R9). -/
def ascii (t : String) : List Byte := t.toList.map fun c => BitVec.ofNat 8 c.toNat

/-- The units in the FIFO after a command that raised nothing, with OFFSET and BLK. -/
def emitted (o : StepOutcome) : Option (List Byte × Word × BitVec 4) :=
  match o with
  | .next t => if t.phase = .error then none else some (t.fifo, t.offset, t.blk)
  | .fault _ => none
  | .refused _ => none

/-- The error latched by a command. -/
def raised (o : StepOutcome) : Option (Cause × Word) :=
  match o with
  | .next t => if t.phase = .error then some (t.cause, t.errOff) else none
  | .fault _ => none
  | .refused _ => none

/-- STATUS and CFGR after a command. -/
def flags (o : StepOutcome) : Option (Word × Word) :=
  match o with
  | .next t => some (t.status, t.cfgrWord)
  | .fault _ => none
  | .refused _ => none

-- STATUS and CFGR after each CFG word: R320 and its example, R104
theorem test_cfg_b16 : flags (exec .cfgB16Enc State.reset) = some (0x21, 0x00) ∧
    flags (exec .cfgB16Dec State.reset) = some (0x21, 0x08) := by decide
theorem test_cfg_b32_enc : flags (exec .cfgB32Enc State.reset) = some (0x21, 0x01) ∧
    flags (exec .cfgB32EncOptpad State.reset) = some (0x21, 0x11) := by decide
theorem test_cfg_b32_dec : flags (exec .cfgB32Dec State.reset) = some (0x21, 0x09) ∧
    flags (exec .cfgB32DecOptpad State.reset) = some (0x21, 0x19) := by decide
theorem test_cfg_b64_enc : flags (exec .cfgB64Enc State.reset) = some (0x21, 0x02) ∧
    flags (exec .cfgB64EncOptpad State.reset) = some (0x21, 0x12) := by decide
theorem test_cfg_b64_dec : flags (exec .cfgB64Dec State.reset) = some (0x21, 0x0A) ∧
    flags (exec .cfgB64DecOptpad State.reset) = some (0x21, 0x1A) := by decide
theorem test_cfg_b85_enc : flags (exec .cfgB85Enc State.reset) = some (0x21, 0x03) ∧
    flags (exec .cfgB85EncFoldz State.reset) = some (0x21, 0x23) := by decide
theorem test_cfg_b85_dec : flags (exec .cfgB85Dec State.reset) = some (0x21, 0x0B) ∧
    flags (exec .cfgB85DecFoldz State.reset) = some (0x21, 0x2B) := by decide
theorem test_cfg_b36 : flags (exec .cfgB36Enc State.reset) = some (0x21, 0x04) ∧
    flags (exec .cfgB36Dec State.reset) = some (0x21, 0x0C) := by decide

-- R321: LCHK 7 in B32.DEC (its example), LCHK 8 passes, LCHK after a unit is SEQUENCE
theorem test_lchk : raised (exec (.lchk 7) (busy (plain .b32 .dec) 0 0)) = some (.badLength, 0) ∧
    emitted (exec (.lchk 8) (busy (plain .b32 .dec) 0 0)) = some ([], 0, 0) ∧
    raised (exec (.lchk 8) (busy (plain .b32 .dec) 1 0)) = some (.sequence, 1) := by decide

-- the examples of R180, R202, R232, R261 and R291, and the fold of R261
theorem test_push_encode :
    emitted (exec (.push 0x6F) (busy (plain .b16 .enc) 0 0)) = some (ascii "6F", 1, 0) ∧
    emitted (exec (.push 0x61) (busy (plain .b32 .enc) 4 0x666F6F62)) = some (ascii "MZXW6YTB", 5, 0) ∧
    emitted (exec (.push 0x6F) (busy (plain .b64 .enc) 2 0x666F)) = some (ascii "Zm9v", 3, 0) ∧
    emitted (exec (.push 0x20) (busy (plain .b85 .enc) 3 0x4D616E)) = some (ascii "9jqo^", 4, 0) ∧
    emitted (exec (.push 0) (busy ⟨.b85, .enc, false, true⟩ 3 0)) = some (ascii "z", 4, 0) ∧
    emitted (exec (.push 0x62) (busy (plain .b36 .enc) 3 0x666F6F)) = some (ascii "0SF742Q", 4, 0) := by decide

-- the examples of R182, R204, R264 and R293, the corner cases of R234 and R264; accumulators by hand from R158
theorem test_push_decode :
    emitted (exec (.push 0x46) (busy (plain .b16 .dec) 1 6)) = some ([0x6F], 2, 0) ∧
    emitted (exec (.push 0x3D) (busy (plain .b32 .dec) 7 0x3337b7b10)) = some (ascii "foob", 8, 0) ∧
    emitted (exec (.push 0x76) (busy (plain .b64 .dec) 3 0x199bd)) = some (ascii "foo", 4, 0) ∧
    raised (exec (.push 0x38) { busy (plain .b64 .dec) 3 0x19980 with padCnt := 1, padOff := 2 }) =
      some (.badCharacter, 3) ∧
    emitted (exec (.push 0x5E) (busy (plain .b85 .dec) 4 0xe90d57)) = some (ascii "Man ", 5, 0) ∧
    raised (exec (.push 0x22) (busy (plain .b85 .dec) 4 0x3030303)) = some (.badCharacter, 4) ∧
    emitted (exec (.push 0x51) (busy (plain .b36 .dec) 6 0x2d86dc2)) = some (ascii "foob", 7, 0) := by decide

-- the examples of R203, R233, R262 and R292
theorem test_end_encode :
    emitted (exec .endOp (busy (plain .b16 .enc) 0 0)) = some ([], 0, 0) ∧
    emitted (exec .endOp (busy (plain .b32 .enc) 4 0x666F6F62)) = some (ascii "MZXW6YQ=", 4, 0) ∧
    emitted (exec .endOp (busy (plain .b64 .enc) 1 0x62)) = some (ascii "Yg==", 1, 0) ∧
    emitted (exec .endOp (busy (plain .b85 .enc) 2 0x4D61)) = some (ascii "9jn", 2, 0) ∧
    emitted (exec .endOp (busy (plain .b36 .enc) 2 0x666F)) = some (ascii "0SF6", 2, 0) := by decide

-- the examples of R183, R205, R265 and R294, and the corner cases of R205 and R235
theorem test_end_decode :
    raised (exec .endOp (busy (plain .b16 .dec) 1 6)) = some (.badLength, 1) ∧
    emitted (exec .endOp (busy ⟨.b32, .dec, true, false⟩ 2 0x199)) = some ([0x66], 2, 0) ∧
    raised (exec .endOp (busy (plain .b32 .dec) 2 0x199)) = some (.badLength, 2) ∧
    emitted (exec .endOp (busy ⟨.b64, .dec, true, false⟩ 2 0x620)) = some ([0x62], 2, 0) ∧
    emitted (exec .endOp (busy (plain .b85 .dec) 2 0xedc)) = some ([0x8B], 2, 0) ∧
    emitted (exec .endOp (busy (plain .b36 .dec) 4 0x8fe2)) = some ([0x66, 0x6F], 4, 0) := by decide

-- R324's example
theorem test_abort : flags (exec .abort (busy (plain .b32 .enc) 1 0x66)) = some (0x20, 0x01) := by decide

-- R75, R80: a halfword access is stuck, a second agent is refused; R401: an illegal word is latched
theorem test_access_halfword : step (State.reset.withAccess ⟨0, 0x04, 2, .read⟩) = .fault .accessStuck := rfl
theorem test_access_second_agent : step (State.reset.withAccess ⟨1, 0x04, 4, .read⟩) = .refused .secondAgent := rfl
theorem test_illegal_word : raised (execWord 0x70000000 (busy (plain .b64 .enc) 2 0)) = some (.illegalCommand, 2) := by
  decide

-- R330, R332, R410: a CFG starts over, and no unit emitted before it is part of the result
theorem test_result_restarts_at_cfg :
    resultOfRun [.cfgB16Enc, .push 0x6F, .cfgB16Enc, .endOp] State.reset = .units [] ∧
    resultOfRun [.cfgB16Dec, .push 0x36, .push 0x46, .push 0x67, .cfgB16Dec, .endOp] State.reset = .units [] := by decide

-- R331: the result is fixed at the end, a PUSH after it changes nothing; an operation never ended, or cancelled, has none
theorem test_result_is_fixed_at_the_end :
    resultOfRun [.cfgB16Enc, .push 0x6F, .endOp, .push 0x6F] State.reset = .units (ascii "6F") ∧
    resultOfRun [.cfgB16Dec, .push 0x67, .push 0x36, .endOp] State.reset = .badCharacter 0 ∧
    resultOfRun [.cfgB16Enc, .push 0x6F] State.reset = .noResult ∧
    resultOfRun [.cfgB16Enc, .push 0x6F, .abort, .endOp] State.reset = .noResult := by decide

/-- What the host knows after `n` steps of the events of `s`. -/
def watched (n : Nat) (s : State) : Option Progress :=
  match watch n .noOperation s with
  | .next (p, _) => some p
  | .fault _ => none
  | .refused _ => none

/-- The reset state with command words and one read of OUTDATA to come, the read after the first two words. -/
def sent (v w x : Word) : State :=
  { State.reset with events := [State.reset.cmdWrite v, State.reset.cmdWrite w,
      .access (State.reset.ownAccess 0x18 .read), State.reset.cmdWrite x] }

-- R330: a unit counts when it is emitted, read or not; R452: a reset discards the operation
theorem test_watch :
    watched 4 (sent 0x10000000 0x3000006F 0x40000000) = some (.ended (.units (ascii "6F"))) ∧
    watched 4 { sent 0x10000000 0x3000006F 0 with events := (sent 0x10000000 0x3000006F 0).events.take 3 ++ [.reset] } =
      some .noOperation := by decide

/-! Witnesses: for each statement with hypotheses, states and operands that meet them. A busy state reaches its mode's
rule. -/

theorem busy_admits (c : Cfg) (b : BitVec 4) (a : AccWord) : (busy c b a).Admits c.codec c.dir :=
  ⟨rfl, rfl, rfl, rfl⟩

/-- The default FIFO has room for a command's units (R455). -/
theorem room : State.reset.params.Admitted := by show 8 ≤ 16; decide

/-- An ACTIVE state at a block boundary meets the invariant. -/
theorem busy_inv_b32_dec : (busy (plain .b32 .dec) 0 0).Inv :=
  ⟨room, by decide, by decide, by decide, by decide, by decide, by decide, by decide, by decide, by decide, by decide,
    Nat.zero_le 16⟩

/-- A block in progress that has seen a padding symbol meets the invariant. -/
theorem busy_inv_padded : { busy (plain .b64 .dec) 3 0x19980 with padCnt := 1, padOff := 2 }.Inv :=
  ⟨room, by decide, by decide, by decide, by decide, by decide, by decide, by decide, by decide, by decide, by decide,
    Nat.zero_le 16⟩

/-- An IDLE state other than that of reset meets the invariant. -/
theorem idle_inv : { State.reset with cfgr := plain .b36 .dec }.Inv :=
  ⟨room, by decide, by decide, by decide, by decide, by decide, by decide, by decide, by decide, by decide, by decide,
    Nat.zero_le 16⟩

/-- An ERROR state. -/
def failed : State := { busy (plain .b64 .enc) 2 0x666F with phase := .error, cause := .sequence, errOff := 2 }

theorem witness_DecodeOfEncodeIsTheCommand :
    Instr.WellFormed .cfgB85DecFoldz = true ∧ Instr.WellFormed (.lchk 0xFFFFFFF) = true ∧
      Instr.WellFormed (.push 0xFF) = true := by decide
theorem witness_EncodeOfDecodeIsTheWord : decode 0x300000FF = .ok (.push 0xFF) ∧ decode 0x1000002B = .ok .cfgB85DecFoldz := by
  decide
theorem witness_LegalWordsAndTheirCommands :
    (0x10000005#32).extractLsb' 28 4 = 1#4 ∧ (0x1000000C#32).extractLsb' 28 4 = 1#4 := by decide
theorem witness_IllegalWordsAndTheirEffect : decode 0x10000005 = .error .illegalCfg ∧ decode 0xF0000000 = .error .reservedOp := by
  decide
theorem witness_ResetValues : (1 : Nat) ≠ 0 := by decide
theorem witness_ResetDiscardsTheOperation : { failed with events := [.reset] }.events = .reset :: [] := by decide
theorem witness_StepKeepsInvariant : (busy (plain .b32 .dec) 0 0).Inv ∧
    step (busy (plain .b32 .dec) 0 0) = .next (busy (plain .b32 .dec) 0 0) := ⟨busy_inv_b32_dec, rfl⟩
theorem witness_StepKeepsInvariant_at_a_command :
    { busy (plain .b64 .dec) 3 0x19980 with padCnt := 1, padOff := 2, events := [State.reset.cmdWrite 0x3000003D] }.Inv ∧
    ∃ t, step { busy (plain .b64 .dec) 3 0x19980 with
      padCnt := 1, padOff := 2, events := [State.reset.cmdWrite 0x3000003D] } = .next t ∧ t.closed = true :=
  ⟨⟨room, by decide, by decide, by decide, by decide, by decide, by decide, by decide, by decide, by decide, by decide,
    Nat.zero_le 16⟩, _, rfl, rfl⟩
theorem witness_StepRunsTheWrittenCommand :
    { failed with events := [failed.cmdWrite 0x50000000] }.events = failed.cmdWrite 0x50000000 :: [] ∧
    decode 0x50000000 = .ok .abort ∧ Instr.WellFormed .abort = true := by decide
theorem witness_FetchWordIsRunNext : decodeTableWord 32 0x2FFFFFFF = some (.lchk 0xFFFFFFF) := by decide
theorem witness_IllegalWordLatches :
    { State.reset with events := [State.reset.cmdWrite 0] }.events = State.reset.cmdWrite 0 :: [] ∧
    decode 0 = .error .reservedOp ∧ State.reset.phase ≠ .error := by decide
theorem witness_IdleStepHoldsTheState : (busy (plain .b36 .enc) 3 1).events = [] := by decide
theorem witness_WindowMap : 0x1C ≤ (0x1C : BitVec 8).toNat ∧ (0x1C : BitVec 8).toNat % 4 = 0 ∧
    0x1C ≤ (0xFC : BitVec 8).toNat ∧ (0xFC : BitVec 8).toNat % 4 = 0 ∧ (0x04 : BitVec 8) ≠ 0 := by decide
theorem witness_OutDataPopsTheHead : { State.reset with fifo := [0xFF] }.fifo = 0xFF :: [] ∧ State.reset.fifo = [] := by
  decide
theorem witness_UnalignedAccessIsStuck :
    ((HostAccess.mk 0 0x01 4 .read).bytes ≠ 4 ∨ (HostAccess.mk 0 0x01 4 .read).offset.toNat % 4 ≠ 0) ∧
    ((HostAccess.mk 0 0x00 2 (.write 0)).bytes ≠ 4 ∨ (HostAccess.mk 0 0x00 2 (.write 0)).offset.toNat % 4 ≠ 0) ∧
    (HostAccess.mk 0 0x01 4 .read).agent = State.reset.owner := by decide
theorem witness_SecondAgentIsRefused : (HostAccess.mk 1 0x00 4 .read).agent ≠ State.reset.owner := by decide
theorem witness_StepStopsOnlyOnBadAccess : ∀ (a : HostAccess) (es : List HostEvent),
    { State.reset with events := [State.reset.cmdWrite 0] }.events = .access a :: es →
      a.Admitted { State.reset with events := [State.reset.cmdWrite 0] } := by
  intro a es h
  cases h
  exact ⟨rfl, rfl, rfl⟩
theorem witness_CfgStartsAnOperation : failed.params.Admitted ∧
    (Instr.cfgB85DecFoldz, Codec.b85, Dir.dec, false, true) ∈ [(Instr.cfgB85DecFoldz, Codec.b85, Dir.dec, false, true)] :=
  ⟨room, by decide⟩
theorem witness_AbortGoesIdle : failed.params.Admitted ∧ { State.reset with cfgr := plain .b36 .dec }.Inv ∧
    { State.reset with cfgr := plain .b36 .dec }.phase = .idle := ⟨room, idle_inv, rfl⟩
theorem witness_LchkChecksTheLength : (busy (plain .b16 .dec) 0 0).phase ≠ .error ∧ State.reset.phase ≠ .error := by decide
theorem witness_OutOfOrderCommandsRaiseSequence :
    (State.reset.phase = .idle ∨ State.reset.phase = .done) ∧
    ({ State.reset with phase := .done }.phase = .idle ∨ { State.reset with phase := .done }.phase = .done) ∧
    (busy (plain .b16 .dec) 1 6).phase = .active ∧ (busy (plain .b16 .dec) 1 6).offset ≠ 0 := by decide
theorem witness_NoRoomRaisesOverrun :
    (busy (plain .b16 .enc) 0 0).phase = .active ∧ (busy (plain .b16 .enc) 0 0).params.outDepth = .units 16 ∧
    16 < { busy (plain .b16 .enc) 0 0 with fifo := List.replicate 9 0 }.fifo.length + 8 ∧
    (∃ t, execWord 0x30000000 { busy (plain .b16 .enc) 0 0 with params := ⟨.seven, .error, .unbounded⟩ } = .next t) ∧
    (busy (plain .b16 .enc) 0 0).cause ≠ .overrun :=
  ⟨by decide, by decide, by decide, ⟨_, rfl⟩, by decide⟩
theorem witness_ErrorIgnoresEveryOtherWord : failed.phase = .error ∧
    ∀ i, decode 0x40000000 = .ok i → i.restarts = false := by
  refine ⟨rfl, fun i h => ?_⟩
  cases h
  rfl
theorem witness_ErrorsArePrecise : (busy (plain .b16 .dec) 1 6).phase ≠ .error ∧
    ∃ t, execWord 0x30000067 (busy (plain .b16 .dec) 1 6) = .next t ∧ t.phase = .error := ⟨by decide, _, rfl, by decide⟩
theorem witness_ErrorIsLeftOnlyByCfgOrAbort : failed.phase = .error ∧
    ∃ t, execWord 0x10000000 failed = .next t ∧ t ≠ failed := ⟨rfl, _, rfl, by decide⟩
theorem witness_EncodeNeverFailsOnItsData : (busy (plain .b85 .enc) 3 0).cfgr.dir = .enc ∧
    (busy (plain .b85 .enc) 3 0).phase = .active ∧ (busy (plain .b85 .enc) 3 0).ready = true ∧
    ∃ t, execWord 0x20000000 (busy (plain .b85 .enc) 3 0) = .next t ∧ t.phase = .error :=
  ⟨rfl, rfl, by decide, _, rfl, by decide⟩
theorem witness_OffsetCountsCompletedPushes :
    (∃ t, exec (.push 0x36) (busy (plain .b16 .dec) 0 0) = .next t ∧ t.phase ≠ .error) ∧
    (∃ t, exec .endOp (busy (plain .b16 .dec) 1 6) = .next t ∧ t.phase = .error) ∧
    (∃ t, exec (.lchk 2) (busy (plain .b16 .dec) 0 0) = .next t) ∧
    Instr.restarts .abort = true := ⟨⟨_, rfl, by decide⟩, ⟨_, rfl, by decide⟩, ⟨_, rfl⟩, rfl⟩
theorem witness_CommandsEmitAtMostEight : (busy (plain .b32 .dec) 0 0).Inv ∧ Instr.restarts (.push 0x4D) = false ∧
    ∃ t, exec (.push 0x4D) (busy (plain .b32 .dec) 0 0) = .next t := ⟨busy_inv_b32_dec, rfl, _, rfl⟩
theorem witness_DrainedHostNeverOverruns : (busy (plain .b32 .dec) 0 0).Inv ∧ (busy (plain .b32 .dec) 0 0).fifo = [] ∧
    (busy (plain .b32 .dec) 0 0).phase ≠ .error ∧ ∃ t, execWord 0x40000000 (busy (plain .b32 .dec) 0 0) = .next t :=
  ⟨busy_inv_b32_dec, rfl, by decide, _, rfl⟩
theorem witness_EmptyInputGivesEmptyOutput : failed.params.Admitted ∧ Instr.cfg? .cfgB36Dec = some ⟨.b36, .dec, false, false⟩ :=
  ⟨room, rfl⟩

/-! The mode rules: `busy_admits` gives `Admits`; the clauses' ranges are met at their ends. -/

theorem witness_ResultIsTheUnitsSinceCfg :
    (∃ t, execWord 0x10000000 failed = .next t) ∧ decode 0x10000000 = .ok .cfgB16Enc ∧
    Instr.cfgB16Enc.cfg?.isSome = true ∧
    (∃ t, execWord 0x30000046 (busy (plain .b16 .dec) 1 6) = .next t ∧ t.phase = .active) ∧
    (∃ t, execWord 0x40000000 (busy (plain .b16 .enc) 0 0) = .next t ∧ t.phase = .done) ∧
    (∃ t, execWord 0x40000000 (busy (plain .b16 .dec) 1 6) = .next t ∧ t.phase = .error) ∧
    decode 0x30000046 = .ok (.push 0x46) ∧ decode 0x40000000 = .ok .endOp ∧ Instr.restarts (.push 0x46) = false ∧
    Instr.restarts .endOp = false ∧ (busy (plain .b16 .dec) 1 6).phase = .active ∧
    (busy (plain .b16 .dec) 1 6).outCnt = BitVec.ofNat 32 ([] : List Byte).length :=
  ⟨⟨_, rfl⟩, rfl, rfl, ⟨_, rfl, by decide⟩, ⟨_, rfl, by decide⟩, ⟨_, rfl, by decide⟩, rfl, rfl, rfl, rfl, rfl, rfl⟩
theorem witness_ResultIsFixedAtTheEnd :
    (∃ t, execWord 0x3000006F { busy (plain .b16 .enc) 0 0 with phase := .done } = .next t) ∧
    (∃ t, execWord 0x3000006F failed = .next t) ∧ failed.phase = .error ∧ decode 0x3000006F = .ok (.push 0x6F) ∧
    Instr.restarts (.push 0x6F) = false ∧ decode 0x50000000 = .ok .abort ∧
    ∃ t, execWord 0x50000000 failed = .next t :=
  ⟨⟨_, rfl⟩, ⟨_, rfl⟩, rfl, rfl, rfl, rfl, ⟨_, rfl⟩⟩
theorem witness_Base16OperationsRoundTrip : failed.params.Admitted ∧
    ascii "6F00" = [0x6F#8, 0#8].flatMap
      (fun u => [charsetSymbol .b16 (u.toNat / 16), charsetSymbol .b16 (u.toNat % 16)]) := ⟨room, by decide⟩
theorem witness_PushEncodesBase16 : (busy (plain .b16 .enc) 0 0).Admits .b16 .enc := busy_admits _ _ _
theorem witness_PushDecodesBase16 : (busy (plain .b16 .dec) 1 6).Admits .b16 .dec ∧ (0x67#8) ∉ charset .b16 ∧
    (0x46#8) = charsetSymbol .b16 15 ∧ (busy (plain .b16 .dec) 0 0).blk = 0 ∧ (busy (plain .b16 .dec) 1 6).blk = 1 :=
  ⟨busy_admits _ _ _, by decide, by decide, rfl, rfl⟩
theorem witness_EndOfBase16 : (busy (plain .b16 .enc) 0 0).Admits .b16 .enc ∧ (busy (plain .b16 .dec) 1 6).Admits .b16 .dec ∧
    (busy (plain .b16 .dec) 0 0).blk ≠ 1 := ⟨busy_admits _ _ _, busy_admits _ _ _, by decide⟩
theorem witness_PushEncodesBase32 : (busy (plain .b32 .enc) 4 1).Admits .b32 .enc ∧
    (busy (plain .b32 .enc) 3 1).blk.toNat < 4 ∧ (busy (plain .b32 .enc) 4 1).blk.toNat = 4 :=
  ⟨busy_admits _ _ _, by decide, by decide⟩
theorem witness_PushEncodesBase64 : (busy (plain .b64 .enc) 2 1).Admits .b64 .enc ∧
    (busy (plain .b64 .enc) 1 1).blk.toNat < 2 ∧ (busy (plain .b64 .enc) 2 1).blk.toNat = 2 :=
  ⟨busy_admits _ _ _, by decide, by decide⟩
theorem witness_EndFlushesBase32 : (busy (plain .b32 .enc) 4 1).Admits .b32 .enc ∧ (busy (plain .b32 .enc) 0 0).blk = 0 ∧
    (busy (plain .b32 .enc) 4 1).blk.toNat = 4 ∧ (4, 7) ∈ [(1, 2), (2, 4), (3, 5), (4, 7)] ∧
    (busy (plain .b32 .enc) 1 1).blk.toNat = 1 := ⟨busy_admits _ _ _, rfl, by decide, by decide, by decide⟩
theorem witness_EndFlushesBase64 : (busy (plain .b64 .enc) 2 1).Admits .b64 .enc ∧ (busy (plain .b64 .enc) 0 0).blk = 0 ∧
    (busy (plain .b64 .enc) 2 1).blk.toNat = 2 ∧ (2, 3) ∈ [(1, 2), (2, 3)] := ⟨busy_admits _ _ _, rfl, by decide, by decide⟩
/-- A padded block in progress reaches its mode's rule. -/
theorem padded_admits (c : Cfg) (b : BitVec 4) (a : AccWord) (p : BitVec 3) (o : Word) (cl : Bool) :
    { busy c b a with padCnt := p, padOff := o, closed := cl }.Admits c.codec c.dir := ⟨rfl, rfl, rfl, rfl⟩
theorem witness_PushDecodesBase32 :
    { busy (plain .b32 .dec) 0 0 with padCnt := 0, padOff := 7, closed := true }.Admits .b32 .dec ∧
    { busy (plain .b32 .dec) 7 1 with padCnt := 5, padOff := 2, closed := false }.Admits .b32 .dec ∧
    (0x31#8) ∉ charset .b32 ∧ (busy (plain .b32 .dec) 3 1).blk.toNat ∉ [2, 4, 5, 7] ∧
    (0x37#8) ∈ charset .b32 ∧ (0x37#8) = charsetSymbol .b32 31 ∧ (busy (plain .b32 .dec) 6 1).blk.toNat < 7 ∧
    (busy (plain .b32 .dec) 2 1).blk.toNat ∈ [2, 4, 5, 7] ∧ (5#3).toNat + 1 = 6 ∧
    (6, 1) ∈ [(1, 4), (3, 3), (4, 2), (6, 1)] :=
  ⟨padded_admits _ _ _ _ _ _, padded_admits _ _ _ _ _ _, by decide, by decide, by decide, by decide, by decide, by decide,
    by decide, by decide⟩
theorem witness_PushDecodesBase64 :
    { busy (plain .b64 .dec) 0 0 with padCnt := 0, padOff := 3, closed := true }.Admits .b64 .dec ∧
    { busy (plain .b64 .dec) 3 1 with padCnt := 1, padOff := 2, closed := false }.Admits .b64 .dec ∧
    (0x2D#8) ∉ charset .b64 ∧ (busy (plain .b64 .dec) 1 1).blk.toNat ∉ [2, 3] ∧
    (0x2F#8) ∈ charset .b64 ∧ (0x2F#8) = charsetSymbol .b64 63 ∧ (busy (plain .b64 .dec) 2 1).blk.toNat < 3 ∧
    (busy (plain .b64 .dec) 2 1).blk.toNat ∈ [2, 3] ∧ (1#3).toNat + 1 = 2 ∧ (2, 1) ∈ [(1, 2), (2, 1)] :=
  ⟨padded_admits _ _ _ _ _ _, padded_admits _ _ _ _ _ _, by decide, by decide, by decide, by decide, by decide, by decide,
    by decide, by decide⟩
theorem witness_EndDecodesBase32 : (busy ⟨.b32, .dec, true, false⟩ 7 1).Admits .b32 .dec ∧
    (busy ⟨.b32, .dec, true, false⟩ 7 1).blk.toNat = 7 ∧ (7, 4) ∈ [(2, 1), (4, 2), (5, 3), (7, 4)] ∧
    (busy ⟨.b32, .dec, true, false⟩ 7 1).cfgr.optpad = true ∧ (busy ⟨.b32, .dec, true, false⟩ 7 1).padCnt = 0 ∧
    (busy ⟨.b32, .dec, true, false⟩ 6 1).blk.toNat ∉ [2, 4, 5, 7] ∧ (busy (plain .b32 .dec) 2 1).blk ≠ 0 ∧
    (busy (plain .b32 .dec) 2 1).cfgr.optpad = false :=
  ⟨busy_admits _ _ _, by decide, by decide, rfl, rfl, by decide, by decide, rfl⟩
theorem witness_EndDecodesBase64 : (busy ⟨.b64, .dec, true, false⟩ 3 1).Admits .b64 .dec ∧
    (busy ⟨.b64, .dec, true, false⟩ 3 1).blk.toNat = 3 ∧ (3, 2) ∈ [(2, 1), (3, 2)] ∧
    (busy ⟨.b64, .dec, true, false⟩ 3 1).cfgr.optpad = true ∧ (busy ⟨.b64, .dec, true, false⟩ 3 1).padCnt = 0 ∧
    (busy ⟨.b64, .dec, true, false⟩ 1 1).blk.toNat ∉ [2, 3] ∧ (busy (plain .b64 .dec) 2 1).blk ≠ 0 :=
  ⟨busy_admits _ _ _, by decide, by decide, rfl, rfl, by decide, by decide⟩
theorem witness_PushEncodesBase85 : (busy ⟨.b85, .enc, false, true⟩ 3 0).Admits .b85 .enc ∧
    (busy (plain .b85 .enc) 2 1).blk.toNat < 3 ∧ (busy ⟨.b85, .enc, false, true⟩ 3 0).blk.toNat = 3 ∧
    0 = (busy ⟨.b85, .enc, false, true⟩ 3 0).acc.toNat * 256 + (0#8).toNat ∧
    (busy (plain .b85 .enc) 3 0).cfgr.foldz = false := ⟨busy_admits _ _ _, by decide, by decide, by decide, rfl⟩
theorem witness_EndFlushesBase85 : (busy (plain .b85 .enc) 3 1).Admits .b85 .enc ∧ (busy (plain .b85 .enc) 0 0).blk = 0 ∧
    (busy (plain .b85 .enc) 3 1).blk.toNat = 3 ∧ (busy (plain .b85 .enc) 1 1).blk.toNat = 1 :=
  ⟨busy_admits _ _ _, rfl, by decide, by decide⟩
theorem witness_PushDecodesBase85 : (busy ⟨.b85, .dec, false, true⟩ 0 0).Admits .b85 .dec ∧
    (busy ⟨.b85, .dec, false, true⟩ 0 0).cfgr.foldz = true ∧ (busy ⟨.b85, .dec, false, true⟩ 1 0).blk ≠ 0 ∧
    ((0x20#8).toNat < 0x21 ∧ (0x20#8) ≠ 0x7A#8) ∧ (0x75 < (0x76#8).toNat ∧ (0x76#8) ≠ 0x7A#8) ∧ (0x75#8).toNat = 84 + 0x21 ∧
    (busy (plain .b85 .dec) 3 1).blk.toNat < 4 ∧ (busy (plain .b85 .dec) 4 52200624).blk.toNat = 4 ∧
    0xFFFFFFFF < (busy (plain .b85 .dec) 4 52200624).acc.toNat * 85 + 84 ∧ State.reset.params.ovf = .error :=
  ⟨busy_admits _ _ _, rfl, by decide, by decide, by decide, by decide, by decide, by decide, by decide, rfl⟩
theorem witness_EndDecodesBase85 : (busy (plain .b85 .dec) 2 7224).Admits .b85 .dec ∧
    (busy (plain .b85 .dec) 1 84).blk = 1 ∧ (busy (plain .b85 .dec) 2 7224).blk.toNat = 2 ∧
    0xFFFFFFFF < (busy (plain .b85 .dec) 2 7224).acc.toNat * 85 ^ 3 + (85 ^ 3 - 1) ∧
    (busy (plain .b85 .dec) 4 0).blk.toNat = 4 ∧ (busy (plain .b85 .dec) 4 0).acc.toNat * 85 ^ 1 + (85 ^ 1 - 1) ≤ 0xFFFFFFFF :=
  ⟨busy_admits _ _ _, rfl, by decide, by decide, by decide, by decide⟩
theorem witness_PushEncodesBase36 : (busy (plain .b36 .enc) 3 0xFFFFFF).Admits .b36 .enc ∧
    (State.reset.params.b36m, 7) ∈ [(B36M.seven, 7), (B36M.six, 6)] ∧ (busy (plain .b36 .enc) 2 1).blk.toNat < 3 ∧
    (busy (plain .b36 .enc) 3 0xFFFFFF).blk.toNat = 3 := ⟨busy_admits _ _ _, by decide, by decide, by decide⟩
theorem witness_EndFlushesBase36 : (busy (plain .b36 .enc) 3 1).Admits .b36 .enc ∧ (busy (plain .b36 .enc) 0 0).blk = 0 ∧
    (busy (plain .b36 .enc) 3 1).blk.toNat = 3 ∧
    (State.reset.params.b36m, 7, 3, 6) ∈ [(B36M.seven, 7, 1, 3), (.seven, 7, 2, 4), (.seven, 7, 3, 6)] :=
  ⟨busy_admits _ _ _, rfl, by decide, by decide⟩
theorem witness_PushDecodesBase36 : (busy (plain .b36 .dec) 6 2176782335).Admits .b36 .dec ∧
    (State.reset.params.b36m, 7) ∈ [(B36M.seven, 7), (B36M.six, 6)] ∧ (0x3D#8) ∉ charset .b36 ∧
    (0x5A#8) = charsetSymbol .b36 35 ∧ (busy (plain .b36 .dec) 5 1).blk.toNat + 1 < 7 ∧
    (busy (plain .b36 .dec) 6 2176782335).blk.toNat + 1 = 7 ∧
    0xFFFFFFFF < (busy (plain .b36 .dec) 6 2176782335).acc.toNat * 36 + 35 :=
  ⟨busy_admits _ _ _, by decide, by decide, by decide, by decide, by decide, by decide⟩
theorem witness_EndDecodesBase36 : (busy (plain .b36 .dec) 6 2176782335).Admits .b36 .dec ∧
    (State.reset.params.b36m = .seven ∧ (busy (plain .b36 .dec) 5 1).blk.toNat ∉ [3, 4, 6]) ∧
    (State.reset.params.b36m, 7, 6, 3) ∈ [(B36M.seven, 7, 3, 1), (.seven, 7, 4, 2), (.seven, 7, 6, 3)] ∧
    0xFFFFFFFF < (busy (plain .b36 .dec) 6 2176782335).acc.toNat * 36 ^ 1 + (36 ^ 1 - 1) ∧
    (busy (plain .b36 .dec) 3 0).acc.toNat * 36 ^ 4 + (36 ^ 4 - 1) ≤ 0xFFFFFFFF :=
  ⟨busy_admits _ _ _, by decide, by decide, by decide, by decide⟩

/-! Tables, rounds and platforms. -/

theorem witness_TablesAreBuiltFromTheCharsets : (charset .b64)[64]? = some 0x3D#8 ∧ (0x7F#8).toNat < 128 ∧
    (0x7F#8) ∉ charset .b64 := by decide
theorem witness_BitFieldBlocksRoundTrip : 1 ≤ 5 ∧ 5 ≤ blockBytes .b32 ∧ 256 ^ 5 - 1 < 256 ^ 5 := by decide
theorem witness_RadixGroupsRoundTrip : (85, 5) ∈ [(85, 5), (36, 7)] ∧ (1 ≤ 4 ∧ 4 ≤ 4) ∧ 256 ^ 4 - 1 < 256 ^ 4 ∧
    (85 - 80 = 5 ∧ 5 = shortSyms 85 5 4) := by decide

/-- Two instances, their windows side by side. -/
def pair : Platform := ⟨[⟨0x1000, State.reset⟩, ⟨0x1100, busy (plain .b16 .enc) 0 0⟩]⟩

theorem test_pair_is_admitted : pair.Admitted := by decide
theorem witness_AccessTouchesOneInstance : pair.route 0x11FC = some 1 ∧
    ∃ q, pair.access ⟨0, 0x11FC, 4, .read⟩ = .next q := ⟨by decide, _, rfl⟩
theorem witness_AccessesToDifferentInstancesCommute : pair.route 0x1000 = some 0 ∧ pair.route 0x1100 = some 1 ∧
    (∃ q, pair.access ⟨0, 0x1000, 4, .write 0x1000000A⟩ = .next q) ∧
    ∃ q, pair.access ⟨0, 0x1100, 4, .write 0x30000066⟩ = .next q := ⟨by decide, by decide, ⟨_, rfl⟩, ⟨_, rfl⟩⟩

end Sys2Proof.Tests
end

section
/-! The entry into ERROR (R11, R404, R409): a command or an illegal word that brings PHASE to ERROR is the error latch
over the state it began in. -/

namespace Sys2Proof.Machine

open Sys2Proof

/-- The statements' `withError` is the model's latch. -/
theorem State.latch_eq_withError (s : State) (e : Raise) : s.latch e = s.withError e.cause e.off := rfl

/-- Of what a command can do (R326), only a raise ends in ERROR when it did not begin there: CFG starts ACTIVE, ABORT
goes IDLE, a completed PUSH stays in its phase and a completed END is DONE. -/
theorem exec_enters_error {i : Instr} {s t : State} (hs : s.phase ≠ .error) (h : exec i s = .next t)
    (ht : t.phase = .error) : ∃ e, t = s.latch e ∧ s.Raises e := by
  rcases exec_next h with ⟨c, -, rfl⟩ | ⟨-, rfl⟩ | ⟨-, -, hp, -⟩ | ⟨n, -, -, rfl⟩ | ⟨u, -, -, -, hpush⟩ |
    ⟨-, -, -, hend⟩ | ⟨-, -, -, hraise⟩
  · simp at ht
  · simp at ht
  · exact absurd hp hs
  · exact absurd ht hs
  · exact absurd ((pushRule_effect hpush).phase.symm.trans ht) hs
  · cases (endRule_effect hend).phase.symm.trans ht
  · exact hraise

/-- A word that brings PHASE to ERROR latches an error with a cause, over the state it began in: the ILLEGAL_COMMAND of
an illegal word (R401), or what its command raises (R400). -/
theorem execWord_enters_error {w : Word} {s t : State} (hs : s.phase ≠ .error) (h : execWord w s = .next t)
    (ht : t.phase = .error) : ∃ e, e.cause ≠ .none ∧ t = s.latch e := by
  cases hd : decode w with
  | error r =>
    rw [execWord_of_illegal hd, execIllegal_eq, if_neg hs] at h
    cases h
    exact ⟨⟨.illegalCommand, s.offset⟩, by simp, rfl⟩
  | ok i =>
    rw [execWord_of_decode hd] at h
    obtain ⟨e, hlatch, hraises⟩ := exec_enters_error hs h ht
    exact ⟨e, hraises.cause_ne, hlatch⟩

/-- Settles O26: by what a word that enters ERROR latches (`execWord_enters_error`). -/
theorem errorsArePrecise : Obligations.ErrorsArePrecise := by
  intro s t w hs h ht
  obtain ⟨e, hcause, rfl⟩ := execWord_enters_error hs h ht
  exact ⟨e.cause, e.off, hcause, s.latch_eq_withError e⟩

end Sys2Proof.Machine
end

section
/-! The invariant of the registers over a step (R50): the mode rules of PUSH and END, every command and every host event
keep `State.Inv`. -/

namespace Sys2Proof.Machine

open Sys2Proof Sys2Proof.Config

/-! The accumulator's bound (R162). -/

/-- One more digit below the radix keeps the accumulator below the radix to the number of digits. -/
theorem mul_add_lt_pow_succ {r acc d k : Nat} (ha : acc < r ^ k) (hd : d < r) : acc * r + d < r ^ (k + 1) := by
  have hstep : acc * r + d < (acc + 1) * r := by
    rw [Nat.add_mul, Nat.one_mul]
    omega
  calc acc * r + d < (acc + 1) * r := hstep
    _ ≤ r ^ k * r := Nat.mul_le_mul_right r ha
    _ = r ^ (k + 1) := (Nat.pow_succ r k).symm

/-- In an encode mode ACC stays in bound when a byte is packed. -/
theorem State.Inv.pack8_lt {s : State} (h : s.Inv) (hd : s.cfgr.dir = .enc) (u : Byte) :
    pack8 s.acc.toNat u < unitRadix s.cfgr ^ (s.blk.toNat + 1) := by
  rw [pack8_eq]
  have hr : unitRadix s.cfgr = 256 := by simp [unitRadix, hd]
  rw [hr]
  exact mul_add_lt_pow_succ (hr ▸ h.accBound) u.isLt

/-- In a decode mode ACC stays in bound when a digit is packed. -/
theorem State.Inv.packRadix_lt {s : State} (h : s.Inv) (hd : s.cfgr.dir = .dec) {d : Nat}
    (hlt : d < radix s.cfgr.codec) :
    packRadix (radix s.cfgr.codec) s.acc.toNat d < unitRadix s.cfgr ^ (s.blk.toNat + 1) := by
  have hr : unitRadix s.cfgr = radix s.cfgr.codec := by simp [unitRadix, hd]
  rw [hr]
  exact mul_add_lt_pow_succ (hr ▸ h.accBound) hlt

/-- In a padded codec the bit packer is the radix packer (R150, R158). -/
theorem packDigit_eq_packRadix {c : Codec} (hp : padded c = true) (acc : Nat) {d : Nat} (hd : d < radix c) :
    packDigit (digitBits c) acc d = packRadix (radix c) acc d := by
  have hr : 2 ^ digitBits c = radix c := by cases c <;> simp_all [padded, digitBits, radix]
  rw [packDigit_eq _ _ _ (hr ▸ hd), hr]
  rfl

/-! A block that goes on, and one that completes. -/

/-- BLK takes the count of a block that goes on without loss (R39). -/
theorem toNat_ofNat_of_lt_blockLimit {p : Params} {c : Cfg} {k : Nat} (h : k < blockLimit p c) :
    (BitVec.ofNat 4 k).toNat = k := by
  have := blockLimit_le p c
  rw [BitVec.toNat_ofNat]
  omega

/-- ACC takes a value without growing it. -/
theorem toNat_ofNat_lt_of_lt {a b : Nat} (h : a < b) : (BitVec.ofNat 64 a).toNat < b := by
  rw [BitVec.toNat_ofNat]
  exact (Nat.mod_le _ _).trans_lt h

/-- A unit that joins a block without padding keeps the invariant, when the block stays short and ACC in bound. -/
theorem State.Inv.holdConsume {s : State} (h : s.Inv) (ha : s.phase = .active) (hr : s.ready = true) {a : Nat}
    (hlim : s.blk.toNat + 1 < blockLimit s.params s.cfgr) (hacc : a < unitRadix s.cfgr ^ (s.blk.toNat + 1))
    (hcl : s.closed = false) (hpad : s.padCnt = 0) : (s.hold a (s.blk.toNat + 1)).consume.Inv :=
  h.ofHold ha hr (.of_hold s _ _) (toNat_ofNat_of_lt_blockLimit hlim) hlim (toNat_ofNat_lt_of_lt hacc) hcl rfl
    fun hne => absurd hpad hne

/-- A unit that completes a block without padding keeps the invariant (R163). -/
theorem State.Inv.closeConsume {s : State} (h : s.Inv) (ha : s.phase = .active) (hr : s.ready = true) {us : List Byte}
    (hu : us.length ≤ 8) (hcl : s.closed = false) : (s.emitAll us).closeBlock.consume.Inv :=
  h.ofClose ha hr (.of_emit s us hu) rfl rfl rfl fun hc => by simp [hcl] at hc

/-- A unit whose output leaves an empty block empty keeps the invariant. -/
theorem State.Inv.emitConsume {s : State} (h : s.Inv) (ha : s.phase = .active) (hr : s.ready = true) {us : List Byte}
    (hu : us.length ≤ 8) (hblk : s.blk = 0) (hcl : s.closed = false) : (s.emitAll us).consume.Inv := by
  obtain ⟨hacc, hpad⟩ := h.emptyBlock hblk
  exact h.ofClose ha hr (.of_units s us hu) (by simpa) (by simpa) (by simpa) fun hc => by simp [hcl] at hc

/-! PUSH, mode by mode. -/

/-- A count that is 0 is an empty BLK. -/
theorem State.blk_eq_zero {s : State} (h : s.blk.toNat = 0) : s.blk = 0 := BitVec.eq_of_toNat_eq (by simpa using h)

/-- A Base16 encoder holds no unit between commands (R39). -/
theorem State.Inv.blk_of_b16_enc {s : State} (h : s.Inv) (hc : s.cfgr.codec = .b16) (hd : s.cfgr.dir = .enc) :
    s.blk = 0 := by
  have hlt := h.blkRange
  simp only [blockLimit, hc, hd, blockBytes] at hlt
  exact State.blk_eq_zero (Nat.lt_one_iff.mp hlt)

/-- A Base16 decoder holds at most one symbol between commands (R39). -/
theorem State.Inv.blk_of_b16_dec {s : State} (h : s.Inv) (hc : s.cfgr.codec = .b16) (hd : s.cfgr.dir = .dec) :
    s.blk.toNat < 2 := by
  simpa only [blockLimit, hc, hd, blockSyms] using h.blkRange

/-- R182: the first symbol of a pair is held, the second completes the block. -/
theorem pushB16Dec_keeps_inv {u : Byte} {s t : State} (h : s.Inv) (ha : s.phase = .active) (hr : s.ready = true)
    (hc : s.cfgr.codec = .b16) (hd : s.cfgr.dir = .dec) (ht : pushB16Dec u s = .ok t) : t.Inv := by
  have hunp : padded s.cfgr.codec = false := by rw [hc]; rfl
  have hcl := h.closed_of_unpadded hunp
  unfold pushB16Dec at ht
  split at ht <;> cases ht
  rename_i d hclass
  have hlt := classOf_digit_lt _ _ _ hclass
  unfold acceptHex
  split
  · rename_i hblk
    have hzero : s.blk.toNat + 1 = 1 := by omega
    have hacc : d < unitRadix s.cfgr ^ (s.blk.toNat + 1) := by
      simpa only [unitRadix, hc, hd, hzero, Nat.pow_one] using hlt
    have hlim : s.blk.toNat + 1 < blockLimit s.params s.cfgr := by
      simp only [blockLimit, hc, hd, blockSyms]
      omega
    exact hzero ▸ h.holdConsume ha hr hlim hacc hcl (h.padCnt_of_unpadded hunp)
  · exact h.closeConsume ha hr (by simp) hcl

/-- R261, R291: a byte joins the block or completes it. -/
theorem pushRadixEnc_keeps_inv {c : Codec} {full : Nat → List Byte} (hf : ∀ a, (full a).length ≤ 8) {u : Byte}
    {s t : State} (h : s.Inv) (ha : s.phase = .active) (hr : s.ready = true) (hc : s.cfgr.codec = c)
    (hd : s.cfgr.dir = .enc) (ht : pushRadixEnc c full u s = .ok t) : t.Inv := by
  have hcl := h.closed_of_enc hd
  simp only [pushRadixEnc] at ht
  split at ht <;> cases ht
  · rename_i hlt
    have hlim : s.blk.toNat + 1 < blockLimit s.params s.cfgr := by simpa only [blockLimit, hd, hc] using hlt
    exact h.holdConsume ha hr hlim (h.pack8_lt hd u) hcl (h.padCnt_of_enc hd)
  · exact h.closeConsume ha hr (hf _) hcl

/-- R202, R232: the encoder of a padded codec is the radix encoder with the digits of the bit slicer. -/
theorem pushPaddedEnc_keeps_inv {c : Codec} {u : Byte} {s t : State} (h : s.Inv) (ha : s.phase = .active)
    (hr : s.ready = true) (hc : s.cfgr.codec = c) (hd : s.cfgr.dir = .enc) (ht : pushPaddedEnc c u s = .ok t) :
    t.Inv :=
  pushRadixEnc_keeps_inv (full := fun acc => bitSymbols c acc (bitSyms c)) (fun _ => by simpa using bitSyms_le c)
    h ha hr hc hd ht

/-- R264, R293: a digit joins the group, or completes it in range. -/
theorem pushRadixDec_keeps_inv {c : Codec} {u : Byte} {s t : State} (h : s.Inv) (ha : s.phase = .active)
    (hr : s.ready = true) (hc : s.cfgr.codec = c) (hd : s.cfgr.dir = .dec) (hp : padded c = false)
    (ht : pushRadixDec c u s = .ok t) : t.Inv := by
  subst hc
  have hcl := h.closed_of_unpadded hp
  unfold pushRadixDec at ht
  split at ht
  · rename_i d hclass
    simp only [pushRadixDigit] at ht
    split at ht
    · rename_i hlt
      cases ht
      have hlim : s.blk.toNat + 1 < blockLimit s.params s.cfgr := by simpa only [blockLimit, hd] using hlt
      exact h.holdConsume ha hr hlim (h.packRadix_lt hd (classOf_digit_lt _ _ _ hclass)) hcl
        (h.padCnt_of_unpadded hp)
    · split at ht <;> cases ht
      exact h.closeConsume ha hr (by simp) hcl
  · cases ht
  · cases ht

/-- R264: the fold stands at a group boundary, every other symbol is a digit of its group. -/
theorem pushB85Dec_keeps_inv {u : Byte} {s t : State} (h : s.Inv) (ha : s.phase = .active) (hr : s.ready = true)
    (hc : s.cfgr.codec = .b85) (hd : s.cfgr.dir = .dec) (ht : pushB85Dec u s = .ok t) : t.Inv := by
  unfold pushB85Dec at ht
  split at ht
  · split at ht <;> cases ht
    rename_i hfold
    exact h.emitConsume ha hr (by simp) hfold.2 (h.closed_of_unpadded (by rw [hc]; rfl))
  · exact pushRadixDec_keeps_inv h ha hr hc hd rfl ht

/-- A padded decoder's block of M symbols is the constant of its codec (R150). -/
theorem blockLimit_of_padded_dec {p : Params} {c : Cfg} (hd : c.dir = .dec) (hp : padded c.codec = true) :
    blockLimit p c = bitSyms c.codec := by
  simp only [blockLimit, hd, bitSyms]
  cases hc : c.codec <;> simp_all [padded, blockSyms]

/-- The writes of an accepted symbol keep the invariant when ACC is in bound and the block's padding, if it has any,
began at a legal position (R164, R204, R234). -/
theorem acceptSymbol_keeps_inv {acc n : Nat} {o : Word} {s : State} (h : s.Inv) (ha : s.phase = .active)
    (hr : s.ready = true) (hd : s.cfgr.dir = .dec) (hp : padded s.cfgr.codec = true) (hcl : s.closed = false)
    (hacc : acc < unitRadix s.cfgr ^ (s.blk.toNat + 1))
    (hpad : n ≠ 0 → n ≤ s.blk.toNat + 1 ∧ s.blk.toNat + 1 - n ∈ sigSet s.cfgr.codec) :
    (acceptSymbol s.cfgr.codec acc n o s).Inv := by
  have he := acceptSymbol_effect s.cfgr.codec acc n o s
  unfold acceptSymbol at he ⊢
  simp only at he ⊢
  split
  · rename_i hshort
    rw [if_pos hshort] at he
    have hlim := (blockLimit_of_padded_dec (p := s.params) hd hp).symm ▸ hshort
    refine h.ofHold ha hr he (toNat_ofNat_of_lt_blockLimit hlim) hlim (toNat_ofNat_lt_of_lt hacc) hcl rfl fun hne => ?_
    have hn : n ≠ 0 := by
      rintro rfl
      exact hne rfl
    obtain ⟨hle, hsig⟩ := hpad hn
    have hn8 : (BitVec.ofNat 3 n).toNat = n := by
      have := bitSyms_le s.cfgr.codec
      rw [BitVec.toNat_ofNat]
      omega
    refine ⟨hd, hp, ?_⟩
    simp only [State.consume_padCnt, hn8]
    exact ⟨hle, hsig⟩
  · rename_i hfull
    rw [if_neg hfull] at he
    exact h.ofClose ha hr he rfl rfl rfl fun _ => ⟨hd, hp⟩

/-- Padding that is accepted began at a legal position (R164): at this symbol, or before it in the block. -/
theorem State.Inv.padding_next {s : State} (h : s.Inv)
    (hlegal : ¬(s.padCnt = 0 ∧ s.blk.toNat ∉ sigSet s.cfgr.codec)) :
    s.padCnt.toNat + 1 ≤ s.blk.toNat + 1 ∧ s.blk.toNat + 1 - (s.padCnt.toNat + 1) ∈ sigSet s.cfgr.codec := by
  rw [Nat.add_sub_add_right]
  by_cases hz : s.padCnt = 0
  · rw [hz]
    exact ⟨by simp, by simpa [hz] using hlegal⟩
  · obtain ⟨-, -, hle, hsig⟩ := h.padding hz
    exact ⟨by omega, hsig⟩

/-- R204, R234: every accepted symbol, padding or digit, is packed below the radix. -/
theorem pushPaddedDec_keeps_inv {c : Codec} {u : Byte} {s t : State} (h : s.Inv) (ha : s.phase = .active)
    (hr : s.ready = true) (hc : s.cfgr.codec = c) (hd : s.cfgr.dir = .dec) (hp : padded c = true)
    (ht : pushPaddedDec c u s = .ok t) : t.Inv := by
  subst hc
  have hpack : ∀ {d : Nat}, d < radix s.cfgr.codec →
      packDigit (digitBits s.cfgr.codec) s.acc.toNat d < unitRadix s.cfgr ^ (s.blk.toNat + 1) := fun hlt =>
    packDigit_eq_packRadix hp _ hlt ▸ h.packRadix_lt hd hlt
  unfold pushPaddedDec at ht
  split at ht
  · cases ht
  · rename_i hopen
    have hcl : s.closed = false := by simpa using hopen
    split at ht
    · cases ht
    · split at ht <;> cases ht
      rename_i hlegal
      have hpos : 0 < radix s.cfgr.codec := by cases s.cfgr.codec <;> decide
      exact acceptSymbol_keeps_inv h ha hr hd hp hcl (hpack hpos) fun _ => h.padding_next hlegal
    · rename_i d hclass
      split at ht <;> cases ht
      rename_i hpad
      have hz : s.padCnt.toNat = 0 := by simpa using congrArg BitVec.toNat (not_not.mp hpad)
      exact acceptSymbol_keeps_inv h ha hr hd hp hcl (hpack (classOf_digit_lt _ _ _ hclass)) fun hn => absurd hz hn

/-- A PUSH rule that completes keeps the invariant, in every mode (R325). -/
theorem pushRule_keeps_inv {u : Byte} {s t : State} (h : s.Inv) (ha : s.phase = .active) (hr : s.ready = true)
    (ht : pushRule u s = .ok t) : t.Inv := by
  unfold pushRule at ht
  split at ht <;> rename_i hc hd
  · cases ht
    exact h.emitConsume ha hr (by simp) (h.blk_of_b16_enc hc hd) (h.closed_of_enc hd)
  · exact pushB16Dec_keeps_inv h ha hr hc hd ht
  · exact pushPaddedEnc_keeps_inv h ha hr hc hd ht
  · exact pushPaddedDec_keeps_inv h ha hr hc hd rfl ht
  · exact pushPaddedEnc_keeps_inv h ha hr hc hd ht
  · exact pushPaddedDec_keeps_inv h ha hr hc hd rfl ht
  · exact pushRadixEnc_keeps_inv (fullB85_length _) h ha hr hc hd ht
  · exact pushB85Dec_keeps_inv h ha hr hc hd ht
  · exact pushRadixEnc_keeps_inv (fun a => by simpa using (b36m_count_le s.params.b36m).trans (by omega))
      h ha hr hc hd ht
  · exact pushRadixDec_keeps_inv h ha hr hc hd rfl ht

/-! END. -/

/-- How an END rule that completes leaves the block: it was empty, or it is flushed (R163, R323). -/
def EndFlushes (s t : State) : Prop :=
  (s.blk = 0 ∧ t = s.finish) ∨ ∃ us, t = (s.emitAll us).closeBlock.finish

theorem endPaddedEnc_flushes {c : Codec} {s t : State} (ht : endPaddedEnc c s = .ok t) : EndFlushes s t := by
  simp only [endPaddedEnc] at ht
  split at ht <;> cases ht
  · exact .inr ⟨_, rfl⟩
  · exact .inl ⟨State.blk_eq_zero (by omega), rfl⟩

theorem endRadixEnc_flushes {c : Codec} {s t : State} (ht : endRadixEnc c s = .ok t) : EndFlushes s t := by
  simp only [endRadixEnc] at ht
  split at ht <;> cases ht
  · exact .inr ⟨_, rfl⟩
  · exact .inl ⟨State.blk_eq_zero (by omega), rfl⟩

theorem endPaddedDec_flushes {c : Codec} {s t : State} (ht : endPaddedDec c s = .ok t) : EndFlushes s t := by
  simp only [endPaddedDec] at ht
  split at ht
  · cases ht
    exact .inl ⟨State.blk_eq_zero ‹_›, rfl⟩
  · split at ht <;> cases ht
    exact .inr ⟨_, rfl⟩

theorem endRadixDec_flushes {c : Codec} {s t : State} (ht : endRadixDec c s = .ok t) : EndFlushes s t := by
  simp only [endRadixDec] at ht
  split at ht
  · cases ht
    exact .inl ⟨State.blk_eq_zero ‹_›, rfl⟩
  · split at ht
    · cases ht
    · split at ht <;> cases ht
      exact .inr ⟨_, rfl⟩

/-- Every END rule that completes leaves no block in progress; in Base16, by the invariant, there is none to flush. -/
theorem endRule_flushes {s t : State} (h : s.Inv) (ht : endRule s = .ok t) : EndFlushes s t := by
  unfold endRule at ht
  split at ht <;> rename_i hc hd
  · cases ht
    exact .inl ⟨h.blk_of_b16_enc hc hd, rfl⟩
  · have hlt := h.blk_of_b16_dec hc hd
    unfold endB16Dec at ht
    split at ht <;> cases ht
    exact .inl ⟨State.blk_eq_zero (by omega), rfl⟩
  · exact endPaddedEnc_flushes ht
  · exact endPaddedDec_flushes ht
  · exact endPaddedEnc_flushes ht
  · exact endPaddedDec_flushes ht
  · exact endRadixEnc_flushes ht
  · exact endRadixDec_flushes ht
  · exact endRadixEnc_flushes ht
  · exact endRadixDec_flushes ht

/-- An END rule that completes keeps the invariant, in every mode (R325). -/
theorem endRule_keeps_inv {s t : State} (h : s.Inv) (ha : s.phase = .active) (hr : s.ready = true)
    (ht : endRule s = .ok t) : t.Inv := by
  have he := endRule_effect ht
  rcases endRule_flushes h ht with ⟨hblk, rfl⟩ | ⟨us, rfl⟩
  · obtain ⟨hacc, hpad⟩ := h.emptyBlock hblk
    exact h.ofEnd ha hr he hblk hacc hpad
  · exact h.ofEnd ha hr he rfl rfl rfl

/-! Commands, words and steps. -/

/-- The configuration a CFG command names is legal (R104). -/
theorem cfg?_legal {i : Instr} {c : Cfg} (h : i.cfg? = some c) : c.legal = true := by
  cases i <;> cases h <;> rfl

/-- Every command keeps the invariant (R326). -/
theorem exec_keeps_inv {i : Instr} {s t : State} (h : s.Inv) (he : exec i s = .next t) : t.Inv := by
  rcases exec_next he with ⟨c, hc, rfl⟩ | ⟨-, rfl⟩ | ⟨-, -, -, rfl⟩ | ⟨n, -, -, rfl⟩ | ⟨u, -, ha, hr, hpush⟩ |
    ⟨-, ha, hr, hend⟩ | ⟨-, -, -, e, rfl, hraises⟩
  · exact h.configure c (cfg?_legal hc)
  · exact h.goIdle
  · exact h
  · exact h
  · exact pushRule_keeps_inv h ha hr hpush
  · exact endRule_keeps_inv h ha hr hend
  · exact h.latch e hraises.cause_ne

/-- Every command word, legal or not, keeps the invariant (R336). -/
theorem execWord_keeps_inv {w : Word} {s t : State} (h : s.Inv) (he : execWord w s = .next t) : t.Inv := by
  cases hd : decode w with
  | ok i => exact exec_keeps_inv h (execWord_of_decode hd s ▸ he)
  | error r =>
    rw [execWord_of_illegal hd, execIllegal_eq] at he
    cases he
    split
    · exact h
    · exact h.latch _ (by simp)

/-- What a step can do: hold the state, reset every register, answer a read, execute a word written to CMD, or ignore a
write elsewhere (R71, R76, R336, R420, R450). -/
theorem step_next {s t : State} (h : step s = .next t) :
    (s.events = [] ∧ t = s) ∨
    (∃ es, s.events = .reset :: es ∧ t = { s with events := es }.resetInstance) ∨
    ∃ a es, s.events = .access a :: es ∧ a.agent = s.owner ∧ a.aligned = true ∧
      ((a.kind = .read ∧ t = (readReg (windowReg a.offset) { s with events := es }).2.reply
          (readReg (windowReg a.offset) { s with events := es }).1) ∨
        (∃ w, a.kind = .write w ∧ windowReg a.offset = .cmd ∧ execWord w { s with events := es } = .next t) ∨
        (∃ w, a.kind = .write w ∧ windowReg a.offset ≠ .cmd ∧ t = { s with events := es })) := by
  unfold step fetchEvent at h
  cases hev : s.events with
  | nil =>
    rw [hev] at h
    cases h
    exact .inl ⟨rfl, rfl⟩
  | cons e es =>
    rw [hev] at h
    cases e with
    | reset =>
      cases h
      exact .inr (.inl ⟨es, rfl, rfl⟩)
    | access a =>
      refine .inr (.inr ⟨a, es, rfl, ?_⟩)
      simp only at h
      rcases hostAccess_cases a { s with events := es } with ⟨-, ho⟩ | ⟨-, -, ho⟩ | ⟨hown, hal, hk, ho⟩ |
        ⟨hown, hal, w, hk, hreg, ho⟩ | ⟨hown, hal, w, hk, hreg, ho⟩ <;> rw [ho] at h
      · cases h
      · cases h
      · cases h
        exact ⟨hown, hal, .inl ⟨hk, rfl⟩⟩
      · exact ⟨hown, hal, .inr (.inl ⟨w, hk, hreg, h⟩)⟩
      · cases h
        exact ⟨hown, hal, .inr (.inr ⟨w, hk, hreg, rfl⟩)⟩

/-- Settles O9: each thing a step can do (`step_next`) keeps the invariant. -/
theorem stepKeepsInvariant : Obligations.StepKeepsInvariant := by
  intro s t h hstep
  rcases step_next hstep with ⟨-, rfl⟩ | ⟨es, -, rfl⟩ | ⟨a, es, -, -, -, hread | hcmd | hignored⟩
  · exact h
  · exact (h.withHost es s.replies).resetInstance
  · obtain ⟨-, rfl⟩ := hread
    exact ((h.withHost es s.replies).readReg _).withHost _ _
  · obtain ⟨w, -, -, hexec⟩ := hcmd
    exact execWord_keeps_inv (h.withHost es s.replies) hexec
  · obtain ⟨w, -, -, rfl⟩ := hignored
    exact h.withHost es s.replies

/-- Settles O8: the reset state holds nothing, and the default FIFO has room (R5, R450). -/
theorem resetMeetsInvariant : Obligations.ResetMeetsInvariant where
  admitted := by show 8 ≤ 16; omega
  cfgrLegal := rfl
  causeIff := by decide
  errOffZero _ := rfl
  emptyBlock _ := ⟨rfl, rfl⟩
  blkRange := blockLimit_pos _ _
  accBound := Nat.one_pos
  closedBlock := by simp [State.reset, State.resetWith]
  padding hne := absurd rfl hne
  idleCleared _ := ⟨rfl, rfl, rfl, rfl, rfl, rfl⟩
  doneFlushed _ := rfl
  fifoFits := fifoFits_of_empty rfl

end Sys2Proof.Machine
end

section
/-! The host's view of the registers: the fields of STATUS (R44), the head of OUTDATA (R46), the count of OFFSET (R36),
the command a step runs (R336), and the one engine an access reaches (R418). -/

namespace Sys2Proof.Machine

open Sys2Proof Sys2Proof.Config

/-! STATUS. -/

/-- READY, as the difference R44 states. -/
theorem State.ready_iff (s : State) : s.ready = true ↔ match s.params.outDepth with
    | .units n => (n : Int) - s.fifo.length ≥ 8
    | .unbounded => True := by
  unfold State.ready
  cases s.params.outDepth with
  | units n =>
    show decide (s.fifo.length + 8 ≤ n) = true ↔ (n : Int) - s.fifo.length ≥ 8
    rw [decide_eq_true_iff]
    omega
  | unbounded => simp

/-- OUTVALID says that the FIFO holds a unit. -/
theorem State.outValid_iff (s : State) : s.outValid = true ↔ 0 < s.fifo.length := by
  rw [List.length_pos_iff, State.outValid, Bool.not_eq_true', List.isEmpty_eq_false_iff]

section

variable (s : State)

/-! The fields of the STATUS word, in the order of their bits. -/

theorem State.status_phase : s.status.extractLsb' 0 2 = phaseCode s.phase :=
  BitVec.extractLsb'_append_eq_right

theorem State.status_cause : s.status.extractLsb' 2 3 = causeCode s.cause := by
  rw [State.status]
  iterate 1 rw [BitVec.extractLsb'_append_eq_of_le (by decide)]
  exact BitVec.extractLsb'_append_eq_right

theorem State.status_ready : s.status.getLsbD 5 = s.ready := by
  simp only [State.status, BitVec.getLsbD_append]
  simp

theorem State.status_outValid : s.status.getLsbD 6 = s.outValid := by
  simp only [State.status, BitVec.getLsbD_append]
  simp

theorem State.status_blk : s.status.extractLsb' 7 4 = s.blk := by
  rw [State.status]
  iterate 4 rw [BitVec.extractLsb'_append_eq_of_le (by decide)]
  exact BitVec.extractLsb'_append_eq_right

theorem State.status_padCnt : s.status.extractLsb' 11 3 = s.padCnt := by
  rw [State.status]
  iterate 5 rw [BitVec.extractLsb'_append_eq_of_le (by decide)]
  exact BitVec.extractLsb'_append_eq_right

theorem State.status_closed : s.status.getLsbD 14 = s.closed := by
  simp only [State.status, BitVec.getLsbD_append]
  simp

theorem State.status_reserved : s.status.extractLsb' 15 17 = 0#17 := by
  rw [State.status]
  iterate 7 rw [BitVec.extractLsb'_append_eq_of_le (by decide)]
  exact BitVec.extractLsb'_eq_self

end

/-- Settles O15: field by field of the STATUS word; the reset value is one evaluation. -/
theorem statusFields : Obligations.StatusFields := by
  refine ⟨fun s => ⟨?_, ?_, ?_, ?_, s.status_blk, s.status_padCnt, s.status_closed, s.status_reserved, rfl⟩, by decide⟩
  · rw [s.status_phase]
    cases s.phase <;> rfl
  · rw [s.status_cause]
    cases s.cause <;> rfl
  · rw [s.status_ready]
    exact s.ready_iff
  · rw [s.status_outValid]
    exact s.outValid_iff

/-! OUTDATA. -/

/-- The valid bit and the head, as one number (R46). -/
theorem outDataWord_eq (u : Byte) : ((0#23) ++ (1#1) ++ u : Word) = BitVec.ofNat 32 (1 <<< 8 ||| u.toNat) := by
  apply BitVec.eq_of_toNat_eq
  have hlt := u.isLt
  have htop : ((0#23) ++ (1#1) : BitVec 24).toNat = 1 := by decide
  rw [BitVec.toNat_append, htop, BitVec.toNat_ofNat, ← Nat.shiftLeft_add_eq_or_of_lt hlt]
  omega

/-- A read of an OUTDATA whose FIFO holds a unit (R46). -/
theorem readOutData_of_cons {s : State} {u : Byte} {us : List Byte} (h : s.fifo = u :: us) :
    readOutData s = ((0#23) ++ (1#1) ++ u, { s with fifo := us }) := by
  simp [readOutData, h]

/-- A read of an OUTDATA whose FIFO is empty (R46). -/
theorem readOutData_of_nil {s : State} (h : s.fifo = []) : readOutData s = (0, s) := by
  simp [readOutData, h]

/-- Bits 31:9 of OUTDATA read as 0 (R46). -/
theorem readOutData_reserved (s : State) : (readOutData s).1.extractLsb' 9 23 = 0#23 := by
  cases h : s.fifo with
  | nil =>
    rw [readOutData_of_nil h]
    exact BitVec.extractLsb'_zero
  | cons u us =>
    rw [readOutData_of_cons h]
    rw [BitVec.extractLsb'_append_eq_of_le (by decide)]
    exact BitVec.extractLsb'_append_eq_left

/-- Settles O16: by the two cases of a read of OUTDATA, a head in the FIFO and none. -/
theorem outDataPopsTheHead : Obligations.OutDataPopsTheHead := by
  refine ⟨fun s u us h => ?_, fun s => readOutData_of_nil, readOutData_reserved, rfl⟩
  rw [← outDataWord_eq]
  exact readOutData_of_cons h

/-! OFFSET. -/

/-- What a command leaves in OFFSET: nothing after CFG and ABORT, one more unit after a PUSH that completes, and the old
count otherwise (R31, R36). -/
theorem exec_offset {i : Instr} {s t : State} (h : exec i s = .next t) :
    (i.restarts = true ∧ t.phase ≠ .error ∧ t.offset = 0) ∨
    (∃ u, i = .push u ∧ t.phase ≠ .error ∧ t.offset = s.offset + 1) ∨
    (i.restarts = false ∧ (t.phase = .error ∨ ∀ u, i ≠ .push u) ∧ t.offset = s.offset) := by
  have hkeep : i.cfg? = none → i ≠ .abort → i.restarts = false := fun hc ha => by simp [Instr.restarts, hc, ha]
  rcases exec_next h with ⟨c, hc, rfl⟩ | ⟨rfl, rfl⟩ | ⟨hc, hab, hp, rfl⟩ | ⟨n, rfl, -, rfl⟩ | ⟨u, rfl, ha, -, hpush⟩ |
    ⟨rfl, -, -, hend⟩ | ⟨hc, hab, -, e, rfl, -⟩
  · exact .inl ⟨by simp [Instr.restarts, hc], by simp, rfl⟩
  · exact .inl ⟨rfl, by simp, rfl⟩
  · exact .inr (.inr ⟨hkeep hc hab, .inl hp, rfl⟩)
  · exact .inr (.inr ⟨rfl, .inr (by simp), rfl⟩)
  · have he := pushRule_effect hpush
    exact .inr (.inl ⟨u, rfl, by simp [he.phase, ha], he.offset⟩)
  · exact .inr (.inr ⟨rfl, .inr (by simp), (endRule_effect hend).offset⟩)
  · exact .inr (.inr ⟨hkeep hc hab, .inl rfl, rfl⟩)

/-- Settles O29: each clause by the one of the three outcomes for OFFSET (`exec_offset`) that its command allows. -/
theorem offsetCountsCompletedPushes : Obligations.OffsetCountsCompletedPushes := by
  intro s t i h
  rcases exec_offset h with ⟨hi, hp, ho⟩ | ⟨u, rfl, hp, ho⟩ | ⟨hi, hp, ho⟩
  · refine ⟨?_, fun _ he => absurd he hp, ?_, ?_, fun _ => ho⟩
    · rintro u rfl
      cases hi
    · rintro n rfl
      cases hi
    · rintro rfl
      cases hi
  · exact ⟨fun _ _ _ _ => ho, fun _ he => absurd he hp, by simp, by simp, fun hi => by cases hi⟩
  · refine ⟨fun u hu _ he => ?_, fun _ _ => ho, fun _ _ => ho, fun _ => ho, fun hr => ?_⟩
    · exact (hp.elim he fun hne => hne u hu).elim
    · simp [hi] at hr

/-! The command a step runs. -/

/-- A step on the host's write to CMD executes the word written (R47, R336). -/
theorem step_cmdWrite {s : State} {w : Word} {es : List HostEvent} (h : s.events = s.cmdWrite w :: es) :
    step s = execWord w { s with events := es } := by
  rw [step, fetchEvent_cmdWrite h]

/-- Settles O10: the step executes the word, which decodes to the command. -/
theorem stepRunsTheWrittenCommand : Obligations.StepRunsTheWrittenCommand := by
  intro s w i es hev hdec _
  rw [step_cmdWrite hev, execWord_of_decode hdec]

/-- A 32-bit table word that decodes is a command word that decodes (R100). -/
theorem decode_of_decodeTableWord {w : Nat} {i : Instr} (h : decodeTableWord 32 w = some i) :
    decode (BitVec.ofNat 32 (w % 2 ^ 32)) = .ok i := by
  simp only [decodeTableWord] at h
  rw [if_pos (Nat.mod_lt _ (by decide))] at h
  split at h <;> cases h
  assumption

/-- Settles O11: the word stands at the head of the events, so the step executes it on the state without it. -/
theorem fetchWordIsRunNext : Obligations.FetchWordIsRunNext := by
  intro s w i h
  have hhead : (s.withFetchWord 32 w).events =
      (s.withFetchWord 32 w).cmdWrite (BitVec.ofNat 32 (w % 2 ^ 32)) :: s.events := rfl
  rw [step_cmdWrite hhead, execWord_of_decode (decode_of_decodeTableWord h)]
  rfl

/-! The engine an access reaches. -/

/-- An access that goes on replaces the state of the engine it was routed to, and nothing else (R77, R418). -/
theorem Platform.access_next {p q : Platform} {b : BusAccess} {i : Nat} (hroute : p.route b.address = some i)
    (h : p.access b = .next q) :
    ∃ e t, p.engines[i]? = some e ∧ e.deliver b = .next t ∧ q = ⟨p.engines.set i { e with state := t }⟩ := by
  unfold Platform.access at h
  rw [hroute] at h
  cases he : p.engines[i]? with
  | none => simp [he] at h
  | some e =>
    cases ht : e.deliver b with
    | next t =>
      simp only [he, ht] at h
      cases h
      exact ⟨e, t, rfl, ht, rfl⟩
    | fault f => simp [he, ht] at h
    | refused r => simp [he, ht] at h

/-- Settles O55: only the routed engine's entry is replaced, by one at the same base. -/
theorem accessTouchesOneInstance : Obligations.AccessTouchesOneInstance := by
  intro p q b i hroute h
  obtain ⟨e, t, he, -, rfl⟩ := Platform.access_next hroute h
  obtain ⟨hi, rfl⟩ := List.getElem?_eq_some_iff.mp he
  refine ⟨?_, fun j hj => List.getElem?_set_ne (Ne.symm hj)⟩
  have hbase : (p.engines.map (·.base))[i]'(by simpa) = p.engines[i].base := List.getElem_map _
  rw [List.map_set, ← hbase, List.set_getElem_self]

end Sys2Proof.Machine
end

section
/-! The host's accesses (spec/20): what a step on an access does (R71, R75, R80), that nothing else stops a step (R404,
R420), and that accesses to different instances commute (R79). -/

namespace Sys2Proof.Machine

open Sys2Proof Sys2Proof.Config

/-! The step on a host event. -/

/-- The step takes the outcome its fetch has settled. -/
theorem step_of_settled {s : State} {o : StepOutcome} (h : fetchEvent s = .settled o) : step s = o := by
  rw [step, h]

/-- The step executes the command word its fetch hands on. -/
theorem step_of_command {s t : State} {w : Word} (h : fetchEvent s = .command w t) : step s = execWord w t := by
  rw [step, h]

/-- The fetch of a host access is that access to the window, with the access taken. -/
theorem fetchEvent_access {s : State} {a : HostAccess} {es : List HostEvent} (h : s.events = .access a :: es) :
    fetchEvent s = hostAccess a { s with events := es } := by
  simp [fetchEvent, h]

/-- R75: an access is aligned when it is 32 bits wide at a multiple of 4. -/
theorem HostAccess.aligned_iff (a : HostAccess) : a.aligned = true ↔ a.bytes = 4 ∧ a.offset.toNat % 4 = 0 := by
  simp [HostAccess.aligned]

/-- What a step on a host access does, and when: the cases of `hostAccess_cases`, each as the step's outcome. -/
theorem step_access_cases {s : State} {a : HostAccess} {es : List HostEvent} (h : s.events = .access a :: es) :
    (a.agent ≠ s.owner ∧ step s = .refused .secondAgent) ∨
    (a.agent = s.owner ∧ a.aligned = false ∧ step s = .fault .accessStuck) ∨
    (a.agent = s.owner ∧ a.aligned = true ∧ a.kind = .read ∧
      step s = .next ((readReg (windowReg a.offset) { s with events := es }).2.reply
        (readReg (windowReg a.offset) { s with events := es }).1)) ∨
    (a.agent = s.owner ∧ a.aligned = true ∧ ∃ w, a.kind = .write w ∧ windowReg a.offset = .cmd ∧
      step s = execWord w { s with events := es }) ∨
    (a.agent = s.owner ∧ a.aligned = true ∧ ∃ w, a.kind = .write w ∧ windowReg a.offset ≠ .cmd ∧
      step s = .next { s with events := es }) := by
  have hf := fetchEvent_access h
  rcases hostAccess_cases a { s with events := es } with ⟨ho, ha⟩ | ⟨ho, hal, ha⟩ | ⟨ho, hal, hk, ha⟩ |
    ⟨ho, hal, w, hk, hreg, ha⟩ | ⟨ho, hal, w, hk, hreg, ha⟩ <;> rw [ha] at hf
  · exact .inl ⟨ho, step_of_settled hf⟩
  · exact .inr (.inl ⟨ho, hal, step_of_settled hf⟩)
  · exact .inr (.inr (.inl ⟨ho, hal, hk, step_of_settled hf⟩))
  · exact .inr (.inr (.inr (.inl ⟨ho, hal, w, hk, hreg, step_of_command hf⟩)))
  · exact .inr (.inr (.inr (.inr ⟨ho, hal, w, hk, hreg, step_of_settled hf⟩)))

/-- Settles O18: of what an access can do (`step_access_cases`), only the refusal is another agent's. -/
theorem secondAgentIsRefused : Obligations.SecondAgentIsRefused := by
  intro s a hne
  have hev : (s.withAccess a).events = .access a :: s.events := rfl
  rcases step_access_cases hev with ⟨-, hstep⟩ | ⟨ho, -⟩ | ⟨ho, -⟩ | ⟨ho, -⟩ | ⟨ho, -⟩
  · exact hstep
  all_goals exact absurd ho hne

/-- Settles O17: an access that is not aligned is refused or stuck, as its agent is another or the host agent. -/
theorem unalignedAccessIsStuck : Obligations.UnalignedAccessIsStuck := by
  intro s a hbad
  have hal : ¬ a.aligned = true := by
    rw [a.aligned_iff, not_and_or]
    exact hbad
  have hev : (s.withAccess a).events = .access a :: s.events := rfl
  rcases step_access_cases hev with ⟨ho, hstep⟩ | ⟨-, -, hstep⟩ | ⟨-, h, -⟩ | ⟨-, h, -⟩ | ⟨-, h, -⟩
  · exact ⟨fun t => by simp [hstep], fun hown => absurd hown ho⟩
  · exact ⟨fun t => by simp [hstep], fun _ => hstep⟩
  all_goals exact absurd h hal

/-- Settles O19: with no event the state is held, a reset and an admitted access go on, and a command word has a next
state whatever it is (`execWord_total`). -/
theorem stepStopsOnlyOnBadAccess : Obligations.StepStopsOnlyOnBadAccess := by
  intro s hadm
  cases hev : s.events with
  | nil => exact ⟨s, step_of_settled (by simp [fetchEvent, hev])⟩
  | cons e es =>
    cases e with
    | reset => exact ⟨{ s with events := es }.resetInstance, step_of_settled (by simp [fetchEvent, hev])⟩
    | access a =>
      obtain ⟨hown, hwidth⟩ := hadm a es hev
      have hal := a.aligned_iff.mpr hwidth
      rcases step_access_cases hev with ⟨ho, -⟩ | ⟨-, hf, -⟩ | ⟨-, -, -, hread⟩ | ⟨-, -, w, -, -, hcmd⟩ |
        ⟨-, -, w, -, -, hignored⟩
      · exact absurd hown ho
      · exact absurd hal (by simp [hf])
      · exact ⟨_, hread⟩
      · rw [hcmd]
        exact execWord_total w _
      · exact ⟨_, hignored⟩

/-! The window map (R71). -/

/-- The offsets from 0x1C up are reserved (R71). -/
theorem windowReg_reserved {o : BitVec 8} (h : 0x1C ≤ o.toNat) : windowReg o = .reserved := by
  unfold windowReg
  split
  case h_8 => rfl
  all_goals omega

section

variable {s : State} {o : BitVec 8} (ho : o.toNat % 4 = 0)

include ho

/-- The host agent's 32-bit read at a multiple of 4 appends what the register reads as, over the state the read leaves
(R71, R76). -/
theorem step_ownRead : step (s.withAccess (s.ownAccess o .read)) =
    .next ((readReg (windowReg o) s).2.reply (readReg (windowReg o) s).1) := by
  have hal := (s.ownAccess o .read).aligned_iff.mpr ⟨rfl, ho⟩
  have hev : (s.withAccess (s.ownAccess o .read)).events = .access (s.ownAccess o .read) :: s.events := rfl
  rcases step_access_cases hev with ⟨hne, -⟩ | ⟨-, hf, -⟩ | ⟨-, -, -, hread⟩ | ⟨-, -, w, hk, -⟩ | ⟨-, -, w, hk, -⟩
  · exact absurd rfl hne
  · exact absurd hal (by simp [hf])
  · exact hread
  all_goals cases hk

/-- The host agent's 32-bit write at a multiple of 4 other than CMD's offset is ignored (R71). -/
theorem step_ownWrite_ignored {w : Word} (hne : o ≠ 0) : step (s.withAccess (s.ownAccess o (.write w))) = .next s := by
  have hal := (s.ownAccess o (.write w)).aligned_iff.mpr ⟨rfl, ho⟩
  have hev : (s.withAccess (s.ownAccess o (.write w))).events = .access (s.ownAccess o (.write w)) :: s.events := rfl
  rcases step_access_cases hev with ⟨hag, -⟩ | ⟨-, hf, -⟩ | ⟨-, -, hk, -⟩ | ⟨-, -, v, -, hcmd, -⟩ |
    ⟨-, -, v, -, -, hignored⟩
  · exact absurd rfl hag
  · exact absurd hal (by simp [hf])
  · cases hk
  · exact absurd (offset_eq_zero_of_cmd hcmd) hne
  · exact hignored

end

/-- The OUTDATA word of a head, as a sum: the valid bit and the unit below it (R46). -/
theorem outDataWord_eq_add (u : Byte) : ((0#23) ++ (1#1) ++ u : Word) = 0x100 + u.setWidth 32 := by
  have hlt := u.isLt
  rw [outDataWord_eq, ← Nat.shiftLeft_add_eq_or_of_lt hlt]
  apply BitVec.eq_of_toNat_eq
  rw [BitVec.toNat_add, BitVec.toNat_setWidth, BitVec.toNat_ofNat]
  simp

/-- Settles O14: a read by its register (`step_ownRead`), a write as the command it is or ignored. -/
theorem windowMap : Obligations.WindowMap := by
  intro s
  refine ⟨step_ownRead rfl, step_ownRead rfl, step_ownRead rfl, step_ownRead rfl, step_ownRead rfl, step_ownRead rfl,
    ?outData, ?reserved, fun o w hne ho => step_ownWrite_ignored ho hne, fun w => step_cmdWrite rfl⟩
  case outData =>
    have hread : readReg (windowReg 0x18) s = readOutData s := rfl
    rw [step_ownRead rfl, hread]
    cases h : s.fifo with
    | nil =>
      have hempty : { s with fifo := [] } = s := by rw [← h]
      rw [readOutData_of_nil h]
      exact congrArg (fun t : State => Host.Outcome.next (t.reply 0)) hempty.symm
    | cons u us =>
      rw [readOutData_of_cons h, outDataWord_eq_add]
      rfl
  case reserved =>
    intro o hres ho
    rw [step_ownRead ho, windowReg_reserved hres]
    rfl

/-! Accesses to different instances. -/

/-- Where an address is routed depends on the bases alone (R77). -/
theorem Platform.route_eq_of_bases {p q : Platform} (h : q.engines.map (·.base) = p.engines.map (·.base))
    (address : Nat) : q.route address = p.route address := by
  have hbases (r : Platform) : r.route address = (r.engines.map (·.base)).findIdx? (inWindow · address) := by
    rw [List.findIdx?_map]
    rfl
  rw [hbases, hbases, h]

/-- An access whose engine takes it goes on, with that engine's state replaced (R77, R418). -/
theorem Platform.access_of_deliver {p : Platform} {b : BusAccess} {i : Nat} {e : Engine} {t : State}
    (hroute : p.route b.address = some i) (he : p.engines[i]? = some e) (ht : e.deliver b = .next t) :
    p.access b = .next ⟨p.engines.set i { e with state := t }⟩ := by
  simp [Platform.access, hroute, he, ht]

/-- An access goes through after an access to another instance as it does alone: its route and its engine are the same
(`accessTouchesOneInstance`). -/
theorem Platform.access_after_other {p pa : Platform} {a b : BusAccess} {i j : Nat} {f : Engine} {u : State}
    (ha : p.route a.address = some i) (hb : p.route b.address = some j) (hij : i ≠ j) (hpa : p.access a = .next pa)
    (hf : p.engines[j]? = some f) (hu : f.deliver b = .next u) :
    pa.access b = .next ⟨pa.engines.set j { f with state := u }⟩ := by
  obtain ⟨hbases, hothers⟩ := accessTouchesOneInstance p pa a i ha hpa
  refine Platform.access_of_deliver ?_ ?_ hu
  · rw [Platform.route_eq_of_bases hbases, hb]
  · rw [hothers j hij.symm, hf]

/-- Settles O56: each access replaces its own engine's state (`Platform.access_next`), in either order, and replacing
two different entries of a list commutes. -/
theorem accessesToDifferentInstancesCommute : Obligations.AccessesToDifferentInstancesCommute := by
  intro p pa pb a b i j ha hb hij hpa hpb
  obtain ⟨e, t, he, ht, rfl⟩ := Platform.access_next ha hpa
  obtain ⟨f, u, hf, hu, rfl⟩ := Platform.access_next hb hpb
  refine ⟨_, Platform.access_after_other ha hb hij hpa hf hu, ?_⟩
  rw [Platform.access_after_other hb ha hij.symm hpb he ht, List.set_comm _ _ hij]

end Sys2Proof.Machine
end

section
/-! The encoding (spec/30). The formats of R101 are one relation between a command and a word, `Instr.Spells`; `encode`
and `decode` are each shown to be that relation, so that they are inverse to each other. The lists of the legal and the
illegal words (R103 to R105) follow from it. -/

namespace Sys2Proof

/-! Words and their fields (R101). -/

/-- A slice of a word is a concatenation exactly when the two parts are the two halves of the slice. -/
theorem append_eq_extractLsb'_iff {l m n : Nat} (a : BitVec m) (b : BitVec n) (x : BitVec l) (i : Nat) :
    a ++ b = x.extractLsb' i (m + n) ↔ a = x.extractLsb' (i + n) m ∧ b = x.extractLsb' i n := by
  rw [← BitVec.extractLsb'_append_extractLsb'_eq_extractLsb' rfl]
  constructor
  · intro h
    have hhigh := congrArg (BitVec.extractLsb' n m) h
    have hlow := congrArg (BitVec.extractLsb' 0 n) h
    simpa only [BitVec.extractLsb'_append_eq_left, BitVec.extractLsb'_append_eq_right] using And.intro hhigh hlow
  · rintro ⟨rfl, rfl⟩
    rfl

/-- A word is a concatenation exactly when its two parts are the word's high and low bits. -/
theorem append_eq_iff {m n : Nat} (a : BitVec m) (b : BitVec n) (x : BitVec (m + n)) :
    a ++ b = x ↔ a = x.extractLsb' n m ∧ b = x.extractLsb' 0 n := by
  have h := append_eq_extractLsb'_iff a b x 0
  rwa [BitVec.extractLsb'_eq_self, Nat.zero_add] at h

/-- A slice of one bit is that bit. -/
theorem extractLsb'_one {l : Nat} (x : BitVec l) (i : Nat) : x.extractLsb' i 1 = BitVec.ofBool (x.getLsbD i) := by
  ext j hj
  obtain rfl : j = 0 := by omega
  simp

/-- The low six bits of a word are those of a configuration exactly when its configuration fields are (R101, R102). -/
theorem Cfg.bits_eq_iff (c : Cfg) (w : Word) : c.bits = w.extractLsb' 0 6 ↔ c.fields = cfgFieldsOf w := by
  unfold Cfg.bits
  rw [append_eq_extractLsb'_iff (m := 3) (n := 3), append_eq_extractLsb'_iff (m := 2) (n := 1),
    append_eq_extractLsb'_iff (m := 1) (n := 1)]
  simp only [extractLsb'_one, BitVec.ofBool_eq_iff_eq, Cfg.fields, cfgFieldsOf, CfgFields.mk.injEq]
  tauto

/-- The format C word of a configuration (R101). -/
theorem encodeCfg_eq_iff (c : Cfg) (w : Word) :
    encodeCfg c = w ↔ opField w = 1 ∧ cfgReserved w = 0 ∧ c.fields = cfgFieldsOf w := by
  calc encodeCfg c = w ↔ ((1#4) ++ (0#22)) = w.extractLsb' 6 (4 + 22) ∧ c.bits = w.extractLsb' 0 6 :=
        append_eq_iff (m := 26) (n := 6) _ _ w
    _ ↔ (1#4 = opField w ∧ 0#22 = cfgReserved w) ∧ c.fields = cfgFieldsOf w := by
        rw [append_eq_extractLsb'_iff, c.bits_eq_iff]
        rfl
    _ ↔ _ := by rw [and_assoc, eq_comm, eq_comm (a := 0#22)]; rfl

/-- The format L word of a length, and with length 0 the format Z word (R101). -/
theorem op_append_eq_iff (op : BitVec 4) (n : BitVec 28) (w : Word) :
    op ++ n = w ↔ opField w = op ∧ len28Field w = n := by
  rw [append_eq_iff, eq_comm, eq_comm (a := n)]
  rfl

/-- The format P word of a unit (R101). -/
theorem encode_push_eq_iff (u : Byte) (w : Word) :
    encode (.push u) = w ↔ opField w = 3 ∧ pushReserved w = 0 ∧ unitField w = u := by
  calc encode (.push u) = w ↔ ((3#4) ++ (0#20)) = w.extractLsb' 8 (4 + 20) ∧ u = w.extractLsb' 0 8 :=
        append_eq_iff (m := 24) (n := 8) _ _ w
    _ ↔ (3#4 = opField w ∧ 0#20 = pushReserved w) ∧ u = unitField w := by
        rw [append_eq_extractLsb'_iff]
        rfl
    _ ↔ _ := by rw [and_assoc, eq_comm, eq_comm (a := 0#20), eq_comm (a := u)]; rfl

/-! The command a word spells. -/

/-- The word spells the command: its fields are those of the command's format and its reserved bits are 0 (R101). -/
def Instr.Spells (i : Instr) (w : Word) : Prop :=
  match i with
  | .lchk n => opField w = 2 ∧ len28Field w = n
  | .push u => opField w = 3 ∧ pushReserved w = 0 ∧ unitField w = u
  | .endOp => opField w = 4 ∧ len28Field w = 0
  | .abort => opField w = 5 ∧ len28Field w = 0
  | i => opField w = 1 ∧ cfgReserved w = 0 ∧ i.cfg?.map Cfg.fields = some (cfgFieldsOf w)

/-- What spells a CFG command (R104). -/
theorem Instr.spells_cfg {i : Instr} {c : Cfg} (h : i.cfg? = some c) (w : Word) :
    i.Spells w ↔ opField w = 1 ∧ cfgReserved w = 0 ∧ c.fields = cfgFieldsOf w := by
  rw [← Option.some_inj (a := c.fields)]
  cases i <;> cases h <;> rfl

/-- A CFG command is encoded by its configuration (R104). -/
theorem encode_cfg {i : Instr} {c : Cfg} (h : i.cfg? = some c) : encode i = encodeCfg c := by
  cases i <;> cases h <;> rfl

/-- The encoder writes the word that spells the command. -/
theorem encode_eq_iff_spells (i : Instr) (w : Word) : encode i = w ↔ i.Spells w := by
  cases hc : i.cfg? with
  | some c => rw [encode_cfg hc, encodeCfg_eq_iff, Instr.spells_cfg hc]
  | none =>
    cases i with
    | lchk n => exact op_append_eq_iff 2 n w
    | push u => exact encode_push_eq_iff u w
    | endOp => exact op_append_eq_iff 4 0 w
    | abort => exact op_append_eq_iff 5 0 w
    | _ => cases hc

/-- The decoder's table of R104 holds the configurations that the CFG commands name. -/
theorem cfgInstr_eq_some_iff (f : CfgFields) (i : Instr) :
    cfgInstr f = some i ↔ ∃ c, i.cfg? = some c ∧ c.fields = f := by
  constructor
  · obtain ⟨codec, dir, optpad, foldz⟩ := f
    intro h
    unfold cfgInstr at h
    split at h <;> cases h
    all_goals
      rename_i hcodec hdir hoptpad hfoldz
      cases hdir; cases hoptpad; cases hfoldz
      refine ⟨_, rfl, ?_⟩
      rw [Cfg.fields, CfgFields.mk.injEq]
      exact ⟨BitVec.eq_of_toNat_eq hcodec.symm, rfl, rfl, rfl⟩
  · rintro ⟨c, hc, rfl⟩
    cases i <;> cases hc <;> rfl

/-- The decoder's table of R104 has a command exactly for the legal fields. -/
theorem cfgInstr_isSome (f : CfgFields) : (cfgInstr f).isSome = f.legal := by
  have htable : ∀ (codec : BitVec 3) (dir optpad foldz : Bool),
      (cfgInstr ⟨codec, dir, optpad, foldz⟩).isSome = CfgFields.legal ⟨codec, dir, optpad, foldz⟩ := by decide
  exact htable f.codec f.dir f.optpad f.foldz

/-- What a format C word decodes to (R106). -/
theorem decodeCfg_eq_ok_iff (w : Word) (i : Instr) :
    decodeCfg w = .ok i ↔ cfgReserved w = 0 ∧ cfgInstr (cfgFieldsOf w) = some i := by
  unfold decodeCfg
  split
  · cases cfgInstr (cfgFieldsOf w) <;> simp_all
  · simp_all

/-- A word with OP = 0x1 is decoded as format C (R106). -/
theorem decode_of_op_cfg {w : Word} (h : opField w = 1) : decode w = decodeCfg w := by
  simp [decode, h]

/-- The decoder answers a command that the word spells (R106). -/
theorem spells_of_decode {w : Word} {i : Instr} (h : decode w = .ok i) : i.Spells w := by
  unfold decode at h
  split at h
  case h_1 hop =>
    obtain ⟨hres, htable⟩ := (decodeCfg_eq_ok_iff w i).mp h
    obtain ⟨c, hc, hfields⟩ := (cfgInstr_eq_some_iff _ i).mp htable
    exact (Instr.spells_cfg hc w).mpr ⟨BitVec.eq_of_toNat_eq hop, hres, hfields⟩
  case h_2 hop =>
    cases h
    exact ⟨BitVec.eq_of_toNat_eq hop, rfl⟩
  case h_3 hop =>
    split at h <;> cases h
    exact ⟨BitVec.eq_of_toNat_eq hop, ‹_›, rfl⟩
  case h_4 hop =>
    split at h <;> cases h
    exact ⟨BitVec.eq_of_toNat_eq hop, ‹_›⟩
  case h_5 hop =>
    split at h <;> cases h
    exact ⟨BitVec.eq_of_toNat_eq hop, ‹_›⟩
  case h_6 => cases h

/-- The decoder answers the command that the word spells (R106). -/
theorem decode_of_spells {w : Word} {i : Instr} (h : i.Spells w) : decode w = .ok i := by
  cases hc : i.cfg? with
  | some c =>
    obtain ⟨hop, hres, hfields⟩ := (Instr.spells_cfg hc w).mp h
    rw [decode_of_op_cfg hop, decodeCfg_eq_ok_iff, cfgInstr_eq_some_iff]
    exact ⟨hres, c, hc, hfields⟩
  | none =>
    cases i with
    | lchk n => obtain ⟨hop, rfl⟩ := h; simp [decode, hop]
    | push u => obtain ⟨hop, hres, rfl⟩ := h; simp [decode, hop, hres]
    | endOp => obtain ⟨hop, hres⟩ := h; simp [decode, hop, hres]
    | abort => obtain ⟨hop, hres⟩ := h; simp [decode, hop, hres]
    | _ => cases hc

/-- Decoding to a command is being its word (R100, R106). -/
theorem decode_eq_ok_iff (w : Word) (i : Instr) : decode w = .ok i ↔ encode i = w := by
  rw [encode_eq_iff_spells]
  exact ⟨spells_of_decode, decode_of_spells⟩

/-- The decoder undoes the encoder. -/
theorem decode_encode (i : Instr) : decode (encode i) = .ok i := (decode_eq_ok_iff _ i).mpr rfl

/-- Settles O1: decoding to a command is being its word (`decode_eq_ok_iff`). Every `Instr` is well formed, so the proof
does not need the hypothesis. -/
theorem decodeOfEncodeIsTheCommand : Obligations.DecodeOfEncodeIsTheCommand := fun i _ => decode_encode i

/-- Settles O2: the other direction of `decode_eq_ok_iff`. -/
theorem encodeOfDecodeIsTheWord : Obligations.EncodeOfDecodeIsTheWord := fun w i => (decode_eq_ok_iff w i).mp

/-! The list of the legal words (R103, R104). -/

/-- The 16 CFG commands, in the order of R104. -/
def cfgInstrs : List Instr :=
  [.cfgB16Enc, .cfgB16Dec, .cfgB32Enc, .cfgB32EncOptpad, .cfgB32Dec, .cfgB32DecOptpad, .cfgB64Enc, .cfgB64EncOptpad,
    .cfgB64Dec, .cfgB64DecOptpad, .cfgB85Enc, .cfgB85EncFoldz, .cfgB85Dec, .cfgB85DecFoldz, .cfgB36Enc, .cfgB36Dec]

/-- The list holds the commands that name a configuration. -/
theorem mem_cfgInstrs_iff (i : Instr) : i ∈ cfgInstrs ↔ ∃ c, i.cfg? = some c := by
  cases i <;> simp [cfgInstrs, Instr.cfg?]

/-- A word with OP = 0x1 is legal exactly when it is the word of one of the 16 CFG commands (R104). -/
theorem decode_cfg_isOk_iff {w : Word} (hop : opField w = 1) :
    (∃ i, decode w = .ok i) ↔ w ∈ cfgInstrs.map encode := by
  simp only [List.mem_map, decode_eq_ok_iff, mem_cfgInstrs_iff]
  refine ⟨fun ⟨i, hi⟩ => ⟨i, ?_, hi⟩, fun ⟨i, _, hi⟩ => ⟨i, hi⟩⟩
  rw [← decode_eq_ok_iff, decode_of_op_cfg hop, decodeCfg_eq_ok_iff, cfgInstr_eq_some_iff] at hi
  obtain ⟨-, c, hc, -⟩ := hi
  exact ⟨c, hc⟩

/-- The LCHK words (R103). -/
theorem encode_lchk (n : BitVec 28) : encode (.lchk n) = 0x20000000#32 + n.setWidth 32 := by
  rw [BitVec.setWidth_eq_append (by decide)]
  exact BitVec.append_zero_add_zero_append.symm

/-- The PUSH words (R103). -/
theorem encode_push (u : Byte) : encode (.push u) = 0x30000000#32 + u.setWidth 32 := by
  rw [BitVec.setWidth_eq_append (by decide)]
  exact BitVec.append_zero_add_zero_append.symm

/-- The commands without an operand, each of one word (R103, R104). -/
def fixedInstrs : List Instr := cfgInstrs ++ [.endOp, .abort]

/-- A command without an operand is listed; the others are LCHK and PUSH. -/
theorem Instr.fixed_or_operand (i : Instr) :
    i ∈ fixedInstrs ∨ (∃ n, i = .lchk n) ∨ ∃ u, i = .push u := by
  cases i <;> simp [fixedInstrs, cfgInstrs]

/-- The legal words and the command of each (R103, R104). -/
theorem legalWords (w : Word) (i : Instr) : decode w = .ok i ↔
    (w, i) ∈ fixedInstrs.map (fun j => (encode j, j)) ∨
      (∃ n : BitVec 28, w = 0x20000000#32 + n.setWidth 32 ∧ i = .lchk n) ∨
      ∃ u : Byte, w = 0x30000000#32 + u.setWidth 32 ∧ i = .push u := by
  simp only [← encode_lchk, ← encode_push, decode_eq_ok_iff]
  constructor
  · rintro rfl
    rcases i.fixed_or_operand with hfixed | ⟨n, rfl⟩ | ⟨u, rfl⟩
    · exact .inl (List.mem_map_of_mem (f := fun j => (encode j, j)) hfixed)
    · exact .inr (.inl ⟨n, rfl, rfl⟩)
    · exact .inr (.inr ⟨u, rfl, rfl⟩)
  · rintro (hfixed | ⟨n, rfl, rfl⟩ | ⟨u, rfl, rfl⟩)
    · obtain ⟨j, -, hj⟩ := List.mem_map.mp hfixed
      cases hj
      rfl
    · rfl
    · rfl

/-- R104's condition on the fields of a word. -/
theorem cfgFieldsOf_legal_iff (w : Word) : (cfgFieldsOf w).legal = true ↔
    (w.extractLsb' 0 3).toNat ≤ 4 ∧
      (w.getLsbD 4 = false ∨ (w.extractLsb' 0 3).toNat = 1 ∨ (w.extractLsb' 0 3).toNat = 2) ∧
      (w.getLsbD 5 = false ∨ (w.extractLsb' 0 3).toNat = 3) := by
  simp [CfgFields.legal, cfgFieldsOf, ← BitVec.toNat_inj, and_assoc, or_assoc]

/-- Settles O3: the words by `legalWords`; a word with OP = 0x1 is legal when w[27:6] = 0 and the table of R104 has its
fields, which is R104's condition on them (`cfgInstr_isSome`). -/
theorem legalWordsAndTheirCommands : Obligations.LegalWordsAndTheirCommands := by
  refine ⟨legalWords, fun w hop => ?_⟩
  rw [decode_of_op_cfg hop]
  simp only [decodeCfg_eq_ok_iff, exists_and_left]
  rw [← cfgFieldsOf_legal_iff, ← cfgInstr_isSome, Option.isSome_iff_exists]
  rfl

/-- The decoder is total: a word is illegal exactly when it decodes to no command (R106). -/
theorem decode_isError_iff (w : Word) : (∃ r, decode w = .error r) ↔ ¬ ∃ i, decode w = .ok i := by
  cases decode w <;> simp

/-- The illegal words (R105), by the decoder's branches on OP. -/
theorem illegalWords (w : Word) : (∃ r, decode w = .error r) ↔
    (opField w).toNat = 0 ∨ 6 ≤ (opField w).toNat ∨ ((opField w).toNat = 1 ∧ w ∉ cfgInstrs.map encode) ∨
      ((opField w).toNat = 3 ∧ pushReserved w ≠ 0) ∨
      (((opField w).toNat = 4 ∨ (opField w).toNat = 5) ∧ len28Field w ≠ 0) := by
  by_cases hcfg : opField w = 1
  · rw [decode_isError_iff, decode_cfg_isOk_iff hcfg, hcfg]
    simp
  · unfold decode
    split
    case h_1 hop => exact absurd (BitVec.eq_of_toNat_eq hop) hcfg
    case h_2 hop => simp [hop]
    case h_3 hop => by_cases hres : pushReserved w = 0#20 <;> simp [hop, hres]
    case h_4 hop => by_cases hres : len28Field w = 0#28 <;> simp [hop, hres]
    case h_5 hop => by_cases hres : len28Field w = 0#28 <;> simp [hop, hres]
    case h_6 h1 h2 h3 h4 h5 =>
      simp only [imp_false] at h1 h2 h3 h4 h5
      have hop : (opField w).toNat = 0 ∨ 6 ≤ (opField w).toNat := by omega
      exact iff_of_true ⟨_, rfl⟩ (hop.imp_right .inl)

/-- Settles O4: the words by `illegalWords`, the effect by what executing an illegal word does (`execIllegal_eq`). -/
theorem illegalWordsAndTheirEffect : Obligations.IllegalWordsAndTheirEffect := by
  refine ⟨illegalWords, fun w r s h => ?_⟩
  rw [Machine.execWord_of_illegal h, Machine.execIllegal_eq]
  rfl

/-! Table words and assembly. -/

/-- A word of 32 bits as a table word is the word itself (R100). -/
theorem decodeTableWord_toNat (w : Word) : decodeTableWord 32 w.toNat = (decode w).toOption := by
  unfold decodeTableWord
  simp only [Nat.mod_eq_of_lt w.isLt, if_pos w.isLt, BitVec.ofNat_toNat, BitVec.setWidth_eq]
  cases decode w <;> rfl

/-- The table word of a command decodes to it (R101 to R104). -/
theorem decodeTableWord_encode (i : Instr) : decodeTableWord 32 (encode i).toNat = some i := by
  rw [decodeTableWord_toNat, decode_encode]
  rfl

/-- Settles O5: each legal word written out is the word of its command; the last has OPTPAD on B16 (R104). -/
theorem writtenWordsDecode : Obligations.WrittenWordsDecode :=
  ⟨decodeTableWord_encode .cfgB32DecOptpad, decodeTableWord_encode .cfgB85DecFoldz, decodeTableWord_encode (.lchk 7),
    decodeTableWord_encode (.push 0x66), decodeTableWord_encode .endOp, decodeTableWord_encode .abort,
    decodeTableWord_toNat 0x10000010#32⟩

end Sys2Proof

namespace Sys2Proof.Machine

open Sys2Proof

/-- A line assembles as the statement its tokens spell (R107). -/
theorem assembleLine_of_statement {line : List Char} {a : AsmStmt}
    (h : (lexLine line.length line).bind parseLine = some a) : assembleLine line = assemble a := by
  obtain ⟨ts, hlex, hparse⟩ := Option.bind_eq_some_iff.mp h
  simp only [assembleLine, hlex, hparse]

/-- Settles O57: by the statement each line spells; the two lines in error spell statements that assemble to nothing, an
option of another codec and a unit above 255. -/
theorem linesAssemble : Obligations.LinesAssemble := by
  refine ⟨?cfg, by decide, ?push, by decide, ?lchk, by decide, ?decode, ?option, ?unit⟩
  case cfg => exact assembleLine_of_statement (a := .cfg .b32 .dec ⟨true, false⟩) (by decide)
  case push => exact assembleLine_of_statement (a := .push 0x66) (by decide)
  case lchk => exact assembleLine_of_statement (a := .lchk 7) (by decide)
  case decode => exact assembleLine_of_statement (a := .decode .b64 ⟨false, false⟩ [0x5A, 0x67]) (by decide)
  case option => exact assembleLine_of_statement (a := .cfg .b16 .enc ⟨true, false⟩) (by decide)
  case unit => exact assembleLine_of_statement (a := .push 256) (by decide)

end Sys2Proof.Machine
end

section
/-! The alphabet tables as software reads them (R10, R72, R130): the entries of the two table spaces of a codec in terms
of its charset. -/

namespace Sys2Proof.Machine

open Sys2Proof

/-- The encode table of a codec holds, at each index of the charset, the symbol there (R130). -/
theorem memRead_encSpace {c : Codec} {enc : TableSpace} (henc : encSpace c = some enc) {d : Nat} {u : Byte}
    (hd : (charset c)[d]? = some u) : memRead enc d = u := by
  have hcontents : tableContents enc = charset c := by
    cases c <;> cases henc <;> rfl
  rw [memRead, hcontents, List.getD, hd, Option.getD_some]

/-- The decode table of a codec holds, at each ASCII code, its index in the charset or INVALID (R130). -/
theorem memRead_decSpace {c : Codec} {dec : TableSpace} (hdec : decSpace c = some dec) {u : Byte}
    (hu : u.toNat < 128) :
    memRead dec u.toNat = (((charset c).idxOf? u).map (BitVec.ofNat 8)).getD invalidEntry := by
  have hcontents : tableContents dec = buildDec (charset c) := by
    cases c <;> cases hdec <;> rfl
  rw [memRead, hcontents, getD_buildDec _ _ hu]
  cases (charset c).idxOf? u <;> rfl

/-- No symbol comes twice (R131), so the symbol at index `d` of a charset is found at `d`. -/
theorem idxOf?_of_getElem?_charset {c : Codec} {d : Nat} {u : Byte} (hd : (charset c)[d]? = some u) :
    (charset c).idxOf? u = some d := by
  have hsym : charsetSymbol c d = u := by rw [charsetSymbol, List.getD, hd, Option.getD_some]
  obtain ⟨hlt, -⟩ := List.getElem?_eq_some_iff.mp hd
  exact hsym ▸ idxOf?_charsetSymbol c d hlt

/-- The two tables of a codec are BuildTables of its charset (R130). -/
theorem tables_of_charset {c : Codec} {enc dec : TableSpace} (henc : encSpace c = some enc)
    (hdec : decSpace c = some dec) :
    (∀ (d : Nat) (u : Byte), (charset c)[d]? = some u → memRead enc d = u ∧ memRead dec u.toNat = BitVec.ofNat 8 d) ∧
    (∀ u : Byte, u.toNat < 128 → u ∉ charset c → memRead dec u.toNat = 0xFF#8) := by
  refine ⟨fun d u hd => ⟨memRead_encSpace henc hd, ?_⟩, fun u hu hnot => ?_⟩
  · have hascii := charset_ascii c u (List.mem_of_getElem? hd)
    rw [memRead_decSpace hdec hascii, idxOf?_of_getElem?_charset hd]
    rfl
  · rw [memRead_decSpace hdec hu, List.idxOf?_eq_none_iff.mpr hnot]
    rfl

/-- Settles O52: each charset is compared with its text (R135 to R138), and the tables of every codec that has them are
BuildTables of its charset (`tables_of_charset`). -/
theorem tablesAreBuiltFromTheCharsets : Obligations.TablesAreBuiltFromTheCharsets := by
  intro c text enc dec hrow
  simp only [List.mem_cons, List.not_mem_nil, or_false, Prod.mk.injEq] at hrow
  rcases hrow with ⟨rfl, rfl, rfl, rfl⟩ | ⟨rfl, rfl, rfl, rfl⟩ | ⟨rfl, rfl, rfl, rfl⟩ | ⟨rfl, rfl, rfl, rfl⟩ <;>
    exact ⟨by decide, tables_of_charset rfl rfl⟩

end Sys2Proof.Machine
end

section
/-! The units a command emits (R156, R157): none, or those of its mode rule. -/

namespace Sys2Proof.Machine

open Sys2Proof Sys2Proof.Config

/-- In an encode mode BLK is below N (R39). -/
theorem State.Inv.encodeBlockFits {s : State} (h : s.Inv) : s.EncodeBlockFits := by
  intro hd _
  have hlt := h.blkRange
  simp only [blockLimit, hd] at hlt
  exact hlt.le

/-- A state whose FIFO and OUTCNT stay has emitted nothing. -/
theorem EmitsOnly.nil {s t : State} (hf : t.fifo = s.fifo) (ho : t.outCnt = s.outCnt) : EmitsOnly s t [] :=
  ⟨by simp [hf], by simp [ho]⟩

/-- A command that is neither CFG nor ABORT names no configuration. -/
theorem restarts_eq_false {i : Instr} (h : i.restarts = false) : i.cfg? = none ∧ i ≠ .abort := by
  simpa [Instr.restarts] using h

/-- Settles O30: of what a command can do (`exec_next`), only the rules of PUSH and END emit, and their effects count
the units; the block END flushes fits by the invariant. -/
theorem commandsEmitAtMostEight : Obligations.CommandsEmitAtMostEight := by
  intro s t i hinv hi he
  obtain ⟨hnocfg, hnoabort⟩ := restarts_eq_false hi
  rcases exec_next he with ⟨c, hcfg, -⟩ | ⟨habort, -⟩ | ⟨-, -, -, rfl⟩ | ⟨n, -, -, rfl⟩ | ⟨u, -, -, -, hpush⟩ |
    ⟨-, -, -, hend⟩ | ⟨-, -, -, e, rfl, -⟩
  · simp [hnocfg] at hcfg
  · exact absurd habort hnoabort
  · exact ⟨[], by simp, .nil rfl rfl⟩
  · exact ⟨[], by simp, .nil rfl rfl⟩
  · exact (pushRule_effect hpush).emits
  · obtain ⟨us, hlen, hfifo, hcnt⟩ := (endRule_effect hend).emits
    exact ⟨us, hlen hinv.encodeBlockFits, hfifo, hcnt⟩
  · exact ⟨[], by simp, .nil rfl rfl⟩

end Sys2Proof.Machine
end

section
/-! The engine's arithmetic (spec/41): the digits of a block, packed again, are a quotient of the block's value; what the
justification or the fill puts below that quotient does not reach the bytes that were encoded. -/

namespace Sys2Proof.Machine

open Sys2Proof

/-! Digits packed again. -/

/-- The first `n` of the `m` digits of a value, packed again, are the value without its last `m - n` digits (R155,
R158). -/
theorem foldl_packRadix_radixDigit {r m v n : Nat} (hv : v < r ^ m) (hn : n ≤ m) :
    ((List.range n).map (radixDigit r m v)).foldl (packRadix r) 0 = v / r ^ (m - n) := by
  induction n with
  | zero => simp [Nat.div_eq_of_lt hv]
  | succ n ih =>
    have hexp : m - n = m - (n + 1) + 1 := by omega
    have hpos : m - 1 - n = m - (n + 1) := by omega
    rw [List.range_succ, List.map_append, List.foldl_append, ih (by omega)]
    simp only [List.map_cons, List.map_nil, List.foldl_cons, List.foldl_nil, packRadix, radixDigit]
    rw [hexp, hpos, Nat.pow_succ, ← Nat.div_div_eq_div_mul, Nat.div_add_mod']

/-- A bit field is a digit of radix `2^b` (R154). -/
theorem bitDigit_eq_radixDigit (b m v : Nat) : bitDigit b m v = radixDigit (2 ^ b) m v :=
  funext fun i => bitDigit_eq b m v i

/-- The first `n` of the `m` bit fields of a value, packed again, are the value without its last `m - n` (R154,
R158). -/
theorem foldl_packDigit_bitDigit {b m v n : Nat} (hv : v < (2 ^ b) ^ m) (hn : n ≤ m) :
    ((List.range n).map (bitDigit b m v)).foldl (packDigit b) 0 = v / (2 ^ b) ^ (m - n) := by
  rw [← foldl_packRadix_radixDigit hv hn, ← bitDigit_eq_radixDigit]
  refine List.foldl_ext _ _ _ fun acc d hd => ?_
  obtain ⟨i, -, rfl⟩ := List.mem_map.mp hd
  exact packDigit_eq _ _ _ (bitDigit_lt b m v i)

/-! Justification and unpacking. -/

/-- The left-justified block of `k` bytes is a value of `n` bytes (R153). -/
theorem leftJustify_lt {n acc k : Nat} (hk : k ≤ n) (hacc : acc < 256 ^ k) : leftJustify n acc k < 256 ^ n := by
  calc leftJustify n acc k = acc * 256 ^ (n - k) := leftJustify_eq n acc k
    _ < 256 ^ k * 256 ^ (n - k) := Nat.mul_lt_mul_of_pos_right hacc (by positivity)
    _ = 256 ^ n := by rw [← Nat.pow_add, Nat.add_sub_cancel' hk]

/-- The first `k` bytes of a block depend only on what stands above its last `n - k` bytes (R159). -/
theorem blockBytesOf_of_div {n v k acc : Nat} (hk : k ≤ n) (hv : v / 256 ^ (n - k) = acc) :
    blockBytesOf n v k = (List.range k).map fun j => BitVec.ofNat 8 (acc / 256 ^ (k - 1 - j)) := by
  rw [blockBytesOf_eq]
  refine List.map_congr_left fun j hj => ?_
  have hexp : n - 1 - j = n - k + (k - 1 - j) := by
    have := List.mem_range.mp hj
    omega
  rw [hexp, Nat.pow_add, ← Nat.div_div_eq_div_mul, hv]

/-! Base16, Base32 and Base64. -/

/-- A full block of symbols has as many bits as a full block of bytes (R150). -/
theorem blockValues_eq {c : Codec} (hc : c = .b16 ∨ c = .b32 ∨ c = .b64) :
    (2 ^ digitBits c) ^ bitSyms c = 256 ^ blockBytes c := by
  rcases hc with rfl | rfl | rfl <;> rfl

/-- S(k) is at most M (R151). -/
theorem sigDigits_le_bitSyms {c : Codec} {k : Nat} (hc : c = .b16 ∨ c = .b32 ∨ c = .b64) (hk : k ≤ blockBytes c) :
    sigDigits c k ≤ bitSyms c := by
  rcases hc with rfl | rfl | rfl <;> simp only [sigDigits, digitBits, blockBytes, bitSyms, blockSyms] at hk ⊢ <;>
    omega

/-- The digits beyond S(k) have no more bits than the bytes beyond the first k: S(k) digits hold k bytes (R151). -/
theorem digitBits_mul_unused_le {c : Codec} {k : Nat} (hc : c = .b16 ∨ c = .b32 ∨ c = .b64) :
    digitBits c * (bitSyms c - sigDigits c k) ≤ 8 * (blockBytes c - k) := by
  rcases hc with rfl | rfl | rfl <;> simp only [sigDigits, digitBits, blockBytes, bitSyms, blockSyms] <;> omega

/-- The digits that a short block leaves out are zero (R153, R154). -/
theorem unusedDigits_dvd_leftJustify {c : Codec} (acc k : Nat) (hc : c = .b16 ∨ c = .b32 ∨ c = .b64) :
    (2 ^ digitBits c) ^ (bitSyms c - sigDigits c k) ∣ leftJustify (blockBytes c) acc k := by
  rw [leftJustify, Nat.shiftLeft_eq, ← Nat.pow_mul]
  exact Dvd.dvd.mul_left (Nat.pow_dvd_pow 2 (digitBits_mul_unused_le hc)) acc

/-- Settles O53: the packed digits, justified, are the whole left-justified block, since the digits left out are zero. -/
theorem bitFieldBlocksRoundTrip : Obligations.BitFieldBlocksRoundTrip := by
  intro c k acc hc _ hk hacc
  have hv : leftJustify (blockBytes c) acc k < (2 ^ digitBits c) ^ bitSyms c :=
    (leftJustify_lt hk hacc).trans_eq (blockValues_eq hc).symm
  rw [foldl_packDigit_bitDigit hv (sigDigits_le_bitSyms hc hk), justifySyms_eq,
    Nat.div_mul_cancel (unusedDigits_dvd_leftJustify acc k hc)]
  apply blockBytesOf_of_div hk
  rw [leftJustify_eq, Nat.mul_div_cancel _ (by positivity)]

/-! Base85 and Base36. -/

/-- The digits beyond n(k) have no more values than the bytes beyond the first k (R152). -/
theorem pow_unused_le (r m k : Nat) : r ^ (m - shortSyms r m k) ≤ 256 ^ (4 - k) := by
  unfold shortSyms
  cases h : (List.range (m + 1)).find? (fun n => decide (r ^ (m - n) ≤ 2 ^ (8 * (4 - k)))) with
  | none => simpa using Nat.one_le_pow _ _ (by decide)
  | some n => simpa [Nat.pow_mul] using List.find?_some h

/-- The fill replaces the digits left out by the largest: it never lowers a value, and raises it by less than the place
of its last digit kept (R160). -/
theorem radixFill_bounds {r m v n : Nat} (hr : 0 < r) :
    v ≤ radixFill r m (v / r ^ (m - n)) n ∧ radixFill r m (v / r ^ (m - n)) n < v + r ^ (m - n) := by
  have hpos : 0 < r ^ (m - n) := Nat.pow_pos hr
  have hdiv := Nat.div_add_mod' v (r ^ (m - n))
  have hmod := Nat.mod_lt v hpos
  unfold radixFill
  generalize r ^ (m - n) = q at hpos hdiv hmod ⊢
  omega

/-- A value above a left-justified block by less than the place of its last byte keeps the block's bytes (R153). -/
theorem div_eq_of_leftJustify_le {n v acc k : Nat} (hlo : leftJustify n acc k ≤ v)
    (hhi : v < leftJustify n acc k + 256 ^ (n - k)) : v / 256 ^ (n - k) = acc := by
  rw [leftJustify_eq] at hlo hhi
  exact Nat.div_eq_of_lt_le hlo (by rwa [Nat.add_mul, Nat.one_mul])

/-- A full group of Base85, or of Base36 with seven symbols, holds every 4-byte value (R150). -/
theorem fourBytes_le_groupValues {r m : Nat} (h : (r, m) ∈ [(85, 5), (36, 7)]) : 0 < r ∧ 256 ^ 4 ≤ r ^ m := by
  simp only [List.mem_cons, List.not_mem_nil, or_false, Prod.mk.injEq] at h
  rcases h with ⟨rfl, rfl⟩ | ⟨rfl, rfl⟩ <;> decide

/-- Settles O54: the filled value lies above the left-justified block by less than the place of its last byte, so it is
a 4-byte value with the same first bytes. -/
theorem radixGroupsRoundTrip : Obligations.RadixGroupsRoundTrip := by
  intro r m k acc v n hrm _ hk hacc hn hv
  obtain ⟨hr, hroom⟩ := fourBytes_le_groupValues hrm
  rw [foldl_packRadix_radixDigit ((leftJustify_lt hk hacc).trans_le hroom) (hn ▸ shortSyms_le r m k)] at hv
  obtain ⟨hlo, hhi⟩ := radixFill_bounds (m := m) (v := leftJustify 4 acc k) (n := n) hr
  rw [← hv] at hlo hhi
  have hdiv : v / 256 ^ (4 - k) = acc :=
    div_eq_of_leftJustify_le hlo (hhi.trans_le (Nat.add_le_add_left (hn ▸ pow_unused_le r m k) _))
  refine ⟨?_, blockBytesOf_of_div hk hdiv⟩
  calc v < 256 ^ k * 256 ^ (4 - k) := (Nat.div_lt_iff_lt_mul (by positivity)).mp (hdiv ▸ hacc)
    _ = 2 ^ 32 := by rw [← Nat.pow_add, Nat.add_sub_cancel' hk]; rfl

end Sys2Proof.Machine
end

section
/-! Base16 (spec/42): PUSH and END of its two modes, and the round trip of its operations in array and streaming mode
for a host that drains the FIFO (R333, R334, R455). -/

namespace Sys2Proof.Machine

open Sys2Proof Sys2Proof.Config

/-! The commands of B16.ENC and B16.DEC. -/

/-- The two symbols of a byte (R180). -/
def hexSymbols (u : Byte) : List Byte :=
  [charsetSymbol .b16 (u.toNat / 16), charsetSymbol .b16 (u.toNat % 16)]

/-- The digits of a Base16 block are its high and its low half (R154). -/
theorem bitSymbols_b16 (u : Byte) : bitSymbols .b16 (pack8 0 u) 2 = hexSymbols u := by
  have hlen : (charset .b16).length = 16 := charset_length .b16
  have hdigit (i : Nat) : symbolOf .b16 (bitDigit 4 2 u.toNat i) = charsetSymbol .b16 (bitDigit 4 2 u.toNat i) :=
    symbolOf_eq_charsetSymbol .b16 (by simp) _ (hlen ▸ bitDigit_lt 4 2 u.toNat i)
  have hhigh : bitDigit 4 2 u.toNat 0 = u.toNat / 16 := by
    have hlt := u.isLt
    rw [bitDigit_eq]
    omega
  have hlow : bitDigit 4 2 u.toNat 1 = u.toNat % 16 := by rw [bitDigit_eq]; omega
  have hvalue : pack8 0 u = u.toNat := by rw [pack8_eq]; omega
  calc bitSymbols .b16 (pack8 0 u) 2
      = [symbolOf .b16 (bitDigit 4 2 u.toNat 0), symbolOf .b16 (bitDigit 4 2 u.toNat 1)] := by rw [hvalue]; rfl
    _ = hexSymbols u := by rw [hdigit, hdigit, hhigh, hlow]; rfl

/-- The mode rule of PUSH in B16.ENC (R325). -/
theorem exec_push_b16_enc {s : State} (h : s.Admits .b16 .enc) (u : Byte) :
    exec (.push u) s = .next (s.emitAll (hexSymbols u)).consume := by
  rw [exec_push_of_admits h, pushRule, h.codec, h.dir, ← bitSymbols_b16]
  rfl

/-- The mode rule of PUSH in B16.DEC (R325). -/
theorem exec_push_b16_dec {s : State} (h : s.Admits .b16 .dec) (u : Byte) :
    exec (.push u) s = commit s (pushB16Dec u s) := by
  rw [exec_push_of_admits h, pushRule, h.codec, h.dir]

/-- A symbol of the charset is accepted as its digit (R182). -/
theorem exec_push_b16_dec_digit {s : State} (h : s.Admits .b16 .dec) {d : Nat} (hd : d < 16) :
    exec (.push (charsetSymbol .b16 d)) s = .next (acceptHex d s) := by
  rw [exec_push_b16_dec h, pushB16Dec, classOf_charsetSymbol .b16 (by simp) d hd]
  rfl

/-- The first symbol of a pair is held. -/
theorem acceptHex_first {s : State} (h : s.blk = 0) (d : Nat) : acceptHex d s = (s.hold d 1).consume := by
  simp [acceptHex, h]

/-- The second symbol of a pair emits the byte. -/
theorem acceptHex_second {s : State} (h : s.blk = 1) {d : Nat} (hd : d < 16) :
    acceptHex d s = (s.emitAll [BitVec.ofNat 8 (s.acc.toNat * 16 + d)]).closeBlock.consume := by
  rw [acceptHex, if_neg (by simp [h]), packDigit_eq 4 _ _ hd, byteOf_eq]
  simp

/-- Settles O33: the mode rule emits the byte's two symbols (`exec_push_b16_enc`). -/
theorem pushEncodesBase16 : Obligations.PushEncodesBase16 := by
  intro s u h
  rw [exec_push_b16_enc h, State.emitAll_eq]
  rfl

/-- Settles O34: a symbol outside the charset is Invalid, one inside it is accepted as its digit, and BLK tells the
first of a pair from the second. -/
theorem pushDecodesBase16 : Obligations.PushDecodesBase16 := by
  refine fun s u h => ⟨fun hu => ?invalid, ?first, ?second⟩
  case invalid =>
    rw [exec_push_b16_dec h, pushB16Dec, classOf_of_not_mem .b16 (by simp) u hu]
    rfl
  case first =>
    rintro d hd rfl hblk
    rw [exec_push_b16_dec_digit h hd, acceptHex_first hblk]
    rfl
  case second =>
    rintro d hd rfl hblk
    rw [exec_push_b16_dec_digit h hd, acceptHex_second hblk hd, State.emitAll_eq]
    rfl

/-- The mode rule of END in B16.DEC (R325). -/
theorem exec_end_b16_dec {s : State} (h : s.Admits .b16 .dec) : exec .endOp s = commit s (endB16Dec s) := by
  rw [exec_end_of_admits h, endRule, h.codec, h.dir]

/-- Settles O35: by the two mode rules; that of B16.DEC looks at BLK alone. -/
theorem endOfBase16 : Obligations.EndOfBase16 := by
  refine ⟨fun s h => ?enc, fun s h hblk => ?odd, fun s h hblk => ?even⟩
  case enc =>
    rw [exec_end_of_admits h, endRule, h.codec, h.dir]
    rfl
  case odd =>
    rw [exec_end_b16_dec h, endB16Dec, if_pos (by simp [hblk])]
    rfl
  case even =>
    have hne : s.blk.toNat ≠ 1 := fun he => hblk (BitVec.eq_of_toNat_eq he)
    rw [exec_end_b16_dec h, endB16Dec, if_neg hne]
    rfl

/-! The operations of a draining host. -/

/-- An operation in the configuration `c` that goes on, its output drained. -/
structure State.Drained (s : State) (c : Cfg) : Prop where
  active : s.phase = .active
  cfgr : s.cfgr = c
  params : s.params.Admitted
  fifo : s.fifo = []

/-- Such an operation at a block boundary. -/
structure State.AtBoundary (s : State) (c : Cfg) : Prop extends s.Drained c where
  blk : s.blk = 0

/-- A drained FIFO has room for the next command (R455). -/
theorem State.Drained.admits {s : State} {c : Cfg} (h : s.Drained c) : s.Admits c.codec c.dir :=
  ⟨h.active, congrArg _ h.cfgr, congrArg _ h.cfgr, ready_of_empty h.params h.fifo⟩

/-- The operation goes on after a PUSH that completes, once the host has drained its units. -/
theorem State.Drained.push {s t : State} {c : Cfg} (h : s.Drained c) (he : PushEffect s t) :
    State.Drained { t with fifo := [] } c where
  active := he.phase.trans h.active
  cfgr := he.cfgr.trans h.cfgr
  params := he.params ▸ h.params
  fifo := rfl

/-- CFG leaves the block at a boundary (R320). -/
theorem State.configure_atBoundary {s : State} (h : s.params.Admitted) (c : Cfg) : (s.configure c).AtBoundary c :=
  ⟨⟨rfl, rfl, h, rfl⟩, rfl⟩

/-- The word of a command executes as the command (R336). -/
theorem execWord_encode (i : Instr) (s : State) : execWord (encode i) s = exec i s :=
  execWord_of_decode (decode_encode i) s

/-- The word of a command other than CFG and ABORT decodes to no CFG or ABORT. -/
theorem restarts_of_decode_encode {i j : Instr} (hi : i.restarts = false) (hj : decode (encode i) = .ok j) :
    j.restarts = false := by
  cases (decode_encode i).symm.trans hj
  exact hi

/-- `operate_cons_running` for the word of a command. -/
theorem operate_encode_running {i : Instr} {s t : State} {new : List Byte} (hi : i.restarts = false)
    (h : exec i s = .next t) (ha : t.phase = .active) (hf : t.fifo = s.fifo ++ new) (ws : List Word) (us : List Byte) :
    operate (encode i :: ws) (.running us) s = operate ws (.running (us ++ new)) { t with fifo := [] } :=
  operate_cons_running (fun _ => restarts_of_decode_encode hi) ((execWord_encode i s).trans h) ha hf ws us

/-- The PUSH commands of the units `us` lead from any block boundary to another and emit `out`. -/
def Converts (c : Cfg) (us out : List Byte) : Prop :=
  ∀ (s : State) (before : List Byte), s.AtBoundary c →
    ∃ t, t.AtBoundary c ∧
      operate ((pushAll us).map encode) (.running before) s = .next (.running (before ++ out), t)

theorem Converts.nil (c : Cfg) : Converts c [] [] := fun s before h => ⟨s, h, by simp [pushAll, operate]⟩

theorem Converts.append {c : Cfg} {us vs out new : List Byte} (hus : Converts c us out) (hvs : Converts c vs new) :
    Converts c (us ++ vs) (out ++ new) := by
  intro s before hs
  obtain ⟨t, ht, hrun⟩ := hus s before hs
  obtain ⟨t', ht', hrun'⟩ := hvs t (before ++ out) ht
  refine ⟨t', ht', ?_⟩
  rw [pushAll, List.map_append, List.map_append, ← pushAll, ← pushAll, operate_append _ _ hrun, hrun',
    List.append_assoc]

/-- What converts item by item converts as a whole. -/
theorem Converts.flatMap {c : Cfg} {f g : Byte → List Byte} (h : ∀ u, Converts c (f u) (g u)) (us : List Byte) :
    Converts c (us.flatMap f) (us.flatMap g) := by
  induction us with
  | nil => exact .nil c
  | cons u us ih => exact (h u).append ih

/-- END at a block boundary ends DONE in every mode: there is nothing to flush (R323). -/
theorem endRule_of_empty {s : State} (h : s.blk = 0) : endRule s = .ok s.finish := by
  have hz : s.blk.toNat = 0 := by simp [h]
  unfold endRule
  split
  case h_1 => rfl
  case h_2 | h_3 | h_5 | h_7 | h_9 => exact if_neg (by omega)
  case h_4 | h_6 | h_8 | h_10 => exact if_pos hz

/-- The END of a draining host at a block boundary fixes the units emitted as the result (R330, R331). -/
theorem operate_end {s : State} {c : Cfg} (h : s.AtBoundary c) (us : List Byte) :
    ∃ t, operate [encode .endOp] (.running us) s = .next (.ended (.units us), t) := by
  have hexec : execWord (encode .endOp) s = .next s.finish := by
    rw [execWord_encode, exec_end_of_admits h.admits, endRule_of_empty h.blk, commit_ok]
  have hemits : emittedBy s s.finish = [] := emittedBy_of_append (by simp)
  rw [operate_cons hexec, Progress.next_of_not_restart (fun _ => restarts_of_decode_encode rfl), hemits,
    Progress.advance_done rfl, List.append_nil]
  exact ⟨_, rfl⟩

/-- The CFG of a draining host starts an operation, whatever came before it (R320, R330). -/
theorem operate_cfg {i : Instr} {c : Cfg} (hi : i.cfg? = some c) (p : Progress) (s : State) :
    operate [encode i] p s = .next (.running [], s.configure c) := by
  rw [operate_cons ((execWord_encode i s).trans (exec_cfg hi s)), Progress.next_cfg (decode_encode i) hi]
  rfl

/-- An admitted LCHK right after CFG changes nothing (R321). -/
theorem operate_lchk {c : Cfg} {n : BitVec 28} (hn : badArrayLength c n = false) (s : State) :
    operate [encode (.lchk n)] (.running []) (s.configure c) = .next (.running [], s.configure c) := by
  have hcheck : lengthCheck n (s.configure c) = .ok (s.configure c) := by simp [lengthCheck, hn]
  have hexec : exec (.lchk n) (s.configure c) = .next (s.configure c) := by
    rw [exec_lchk, hcheck, runUnlessError_of_ne (by simp), commit_ok]
  rw [operate_encode_running rfl hexec rfl (List.append_nil _).symm]
  rfl

/-- An opening that configures, the PUSH commands and END have the units converted as their result (R330). -/
theorem resultOfRun_of_converts {opening : List Instr} {c : Cfg} {us out : List Byte} {s : State}
    (hs : s.params.Admitted)
    (hopen : operate (opening.map encode) .noOperation s = .next (.running [], s.configure c))
    (h : Converts c us out) : resultOfRun (opening ++ pushAll us ++ [.endOp]) s = .units out := by
  obtain ⟨t, ht, hrun⟩ := h (s.configure c) [] (State.configure_atBoundary hs c)
  obtain ⟨t', hend⟩ := operate_end ht out
  rw [resultOfRun, List.append_assoc, List.map_append, List.map_append, operate_append _ _ hopen,
    operate_append _ _ hrun]
  simp [hend]

section

variable {i : Instr} {c : Cfg} {us out : List Byte} {s : State}

/-- The result of streaming mode (R334). -/
theorem resultOfRun_streamMode (hi : i.cfg? = some c) (hs : s.params.Admitted) (h : Converts c us out) :
    resultOfRun (streamMode i us) s = .units out :=
  resultOfRun_of_converts hs (operate_cfg hi _ s) h

/-- The result of array mode, of a length that LCHK admits (R333). -/
theorem resultOfRun_arrayMode (hi : i.cfg? = some c) (hs : s.params.Admitted)
    (hlen : badArrayLength c (lenOperand us.length) = false) (h : Converts c us out) :
    resultOfRun (arrayMode i us) s = .units out := by
  refine resultOfRun_of_converts (opening := [i, .lchk (lenOperand us.length)]) hs ?_ h
  exact (operate_append [encode i] _ (operate_cfg hi _ s)).trans (operate_lchk hlen s)

end

/-! The round trip of Base16. -/

/-- The configuration of Base16 in a direction (R104). -/
def hexCfg (d : Dir) : Cfg := ⟨.b16, d, false, false⟩

/-- B16.ENC converts a byte to its two symbols. -/
theorem converts_byte_to_hexSymbols (u : Byte) : Converts (hexCfg .enc) [u] (hexSymbols u) := by
  intro s before h
  have heffect : PushEffect s (s.emitAll (hexSymbols u)).consume := .of_units s _ (by simp [hexSymbols])
  exact ⟨_, ⟨h.push heffect, by simpa using h.blk⟩,
    operate_encode_running rfl (exec_push_b16_enc h.admits u) (heffect.phase.trans h.active) (by simp) [] before⟩

section

variable {s : State} {d : Nat} (hd : d < 16) (ws : List Word) (us : List Byte)

include hd

/-- In B16.DEC the first symbol of a pair emits nothing and is held (R182). -/
theorem operate_first_symbol (h : s.AtBoundary (hexCfg .dec)) :
    ∃ t, t.Drained (hexCfg .dec) ∧ t.blk = 1 ∧ t.acc.toNat = d ∧
      operate (encode (.push (charsetSymbol .b16 d)) :: ws) (.running us) s = operate ws (.running us) t := by
  have hexec := exec_push_b16_dec_digit h.admits hd
  rw [acceptHex_first h.blk] at hexec
  have heffect := PushEffect.of_hold s d 1
  have hrun := operate_encode_running (new := []) rfl hexec (heffect.phase.trans h.active) (by simp) ws us
  rw [List.append_nil] at hrun
  have hacc : (BitVec.ofNat 64 d).toNat = d := by rw [BitVec.toNat_ofNat]; omega
  exact ⟨_, h.push heffect, rfl, hacc, hrun⟩

/-- In B16.DEC the second symbol of a pair emits the byte and completes the block (R182). -/
theorem operate_second_symbol (h : s.Drained (hexCfg .dec)) (hblk : s.blk = 1) :
    ∃ t, t.AtBoundary (hexCfg .dec) ∧
      operate (encode (.push (charsetSymbol .b16 d)) :: ws) (.running us) s =
        operate ws (.running (us ++ [BitVec.ofNat 8 (s.acc.toNat * 16 + d)])) t := by
  have hexec := exec_push_b16_dec_digit h.admits hd
  rw [acceptHex_second hblk hd] at hexec
  have heffect := PushEffect.of_emit s [BitVec.ofNat 8 (s.acc.toNat * 16 + d)] (by simp)
  exact ⟨_, ⟨h.push heffect, rfl⟩,
    operate_encode_running rfl hexec (heffect.phase.trans h.active) (by simp) ws us⟩

end

/-- The halves of a byte make the byte. -/
theorem ofNat_high_low (u : Byte) : BitVec.ofNat 8 (u.toNat / 16 * 16 + u.toNat % 16) = u := by
  rw [Nat.div_add_mod', BitVec.ofNat_toNat, BitVec.setWidth_eq]

/-- B16.DEC converts the two symbols of a byte to the byte. -/
theorem converts_hexSymbols_to_byte (u : Byte) : Converts (hexCfg .dec) (hexSymbols u) [u] := by
  intro s before h
  have hhigh : u.toNat / 16 < 16 := Nat.div_lt_of_lt_mul u.isLt
  have hlow : u.toNat % 16 < 16 := Nat.mod_lt _ (by decide)
  obtain ⟨t, ht, hblk, hacc, hfirst⟩ :=
    operate_first_symbol hhigh [encode (.push (charsetSymbol .b16 (u.toNat % 16)))] before h
  obtain ⟨t', ht', hsecond⟩ := operate_second_symbol hlow [] before ht hblk
  rw [hacc, ofNat_high_low] at hsecond
  exact ⟨t', ht', hfirst.trans hsecond⟩

/-- LCHK admits the symbols of whole bytes: their number is even, modulo 2^28 too (R321). -/
theorem badArrayLength_hexSymbols (us : List Byte) :
    badArrayLength (hexCfg .dec) (lenOperand (us.flatMap hexSymbols).length) = false := by
  have hlen : (us.flatMap hexSymbols).length = us.length * 2 := by simp [List.length_flatMap, hexSymbols]
  have hmod : (lenOperand (us.flatMap hexSymbols).length).toNat % 2 = 0 := by
    rw [hlen, lenOperand, BitVec.toNat_ofNat]
    omega
  have hbad (n : BitVec 28) : badArrayLength (hexCfg .dec) n = (n.toNat % 2 != 0) := rfl
  rw [hbad, hmod]
  rfl

/-- Settles O60: byte by byte, B16.ENC converts to the symbols and B16.DEC back, from one block boundary to the next. -/
theorem base16OperationsRoundTrip : Obligations.Base16OperationsRoundTrip := by
  rintro s us text hs rfl
  have henc : Converts (hexCfg .enc) us (us.flatMap hexSymbols) := by
    simpa using Converts.flatMap (f := ([·])) converts_byte_to_hexSymbols us
  have hdec : Converts (hexCfg .dec) (us.flatMap hexSymbols) us := by
    simpa using Converts.flatMap (g := ([·])) converts_hexSymbols_to_byte us
  exact ⟨resultOfRun_arrayMode rfl hs rfl henc, resultOfRun_streamMode rfl hs henc,
    resultOfRun_arrayMode rfl hs (badArrayLength_hexSymbols us) hdec, resultOfRun_streamMode rfl hs hdec⟩

end Sys2Proof.Machine
end

section
/-! The rules that Base32 and Base64 share (spec/43, spec/44), case by case: one equation for each outcome of PUSH and
END in a padded codec. -/

namespace Sys2Proof.Machine

open Sys2Proof Sys2Proof.Config

/-! Holding, emitting and ending, as updates of the state before. -/

/-- One more unit in the block: BLK counts up (R39). -/
theorem State.hold_succ (s : State) (a : Nat) :
    s.hold a (s.blk.toNat + 1) = { s with acc := BitVec.ofNat 64 a, blk := s.blk + 1 } := by
  simp [State.hold, BitVec.ofNat_add]

/-- `Emit` over a list of known length (R156). -/
theorem State.emitAll_of_length (s : State) {us : List Byte} {n : Nat} (h : us.length = n) :
    s.emitAll us = { s with fifo := s.fifo ++ us, outCnt := s.outCnt + BitVec.ofNat 32 n } := by
  rw [State.emitAll_eq, h]

/-- END at a block boundary ends DONE in every mode (R323). -/
theorem exec_end_of_empty {s : State} {c : Codec} {d : Dir} (h : s.Admits c d) (hblk : s.blk = 0) :
    exec .endOp s = .next { s with phase := .done } := by
  rw [exec_end_of_admits h, endRule_of_empty hblk]
  rfl

section

variable {c : Codec} {s : State} {u : Byte}

/-! The mode rules of a padded codec (R325). -/

/-- Base32 and Base64 are the codecs with a padding symbol (R150). -/
theorem padded_cases (hp : padded c = true) : c = .b32 ∨ c = .b64 := by
  cases c with
  | b32 => exact .inl rfl
  | b64 => exact .inr rfl
  | b16 | b85 | b36 => cases hp

section

variable (hp : padded c = true)

include hp

theorem exec_push_padded_enc (h : s.Admits c .enc) (u : Byte) :
    exec (.push u) s = commit s (pushPaddedEnc c u s) := by
  rw [exec_push_of_admits h, pushRule, h.codec, h.dir]
  rcases padded_cases hp with rfl | rfl <;> rfl

theorem exec_push_padded_dec (h : s.Admits c .dec) (u : Byte) :
    exec (.push u) s = commit s (pushPaddedDec c u s) := by
  rw [exec_push_of_admits h, pushRule, h.codec, h.dir]
  rcases padded_cases hp with rfl | rfl <;> rfl

theorem exec_end_padded_enc (h : s.Admits c .enc) : exec .endOp s = commit s (endPaddedEnc c s) := by
  rw [exec_end_of_admits h, endRule, h.codec, h.dir]
  rcases padded_cases hp with rfl | rfl <;> rfl

theorem exec_end_padded_dec (h : s.Admits c .dec) : exec .endOp s = commit s (endPaddedDec c s) := by
  rw [exec_end_of_admits h, endRule, h.codec, h.dir]
  rcases padded_cases hp with rfl | rfl <;> rfl

end

/-! Encoding. -/

/-- A byte that leaves the block short is held (R202, R232). -/
theorem pushPaddedEnc_short (h : s.blk.toNat + 1 < blockBytes c) :
    pushPaddedEnc c u s = .ok { s with
      acc := BitVec.ofNat 64 (s.acc.toNat * 256 + u.toNat), blk := s.blk + 1, offset := s.offset + 1 } := by
  simp only [pushPaddedEnc, if_pos h, pack8_eq, State.hold_succ]
  rfl

/-- The byte that fills the block emits its M digits (R202, R232). -/
theorem pushPaddedEnc_full (h : blockBytes c ≤ s.blk.toNat + 1) :
    pushPaddedEnc c u s = .ok { s with
      fifo := s.fifo ++ bitSymbols c (s.acc.toNat * 256 + u.toNat) (bitSyms c)
      outCnt := s.outCnt + BitVec.ofNat 32 (bitSyms c)
      acc := 0, blk := 0, padCnt := 0
      offset := s.offset + 1 } := by
  simp only [pushPaddedEnc, if_neg h.not_gt, pack8_eq, State.emitAll_of_length s (bitSymbols_length c _ _)]
  rfl

/-- END flushes a short block as its digits and its padding (R203, R233). -/
theorem endPaddedEnc_short (hpos : 0 < s.blk.toNat) (hsig : sigDigits c s.blk.toNat ≤ bitSyms c) :
    endPaddedEnc c s = .ok { s with
      fifo := s.fifo ++ paddedTail c s.acc.toNat s.blk.toNat
      outCnt := s.outCnt + BitVec.ofNat 32 (bitSyms c)
      acc := 0, blk := 0, padCnt := 0
      phase := .done } := by
  simp only [endPaddedEnc, if_pos hpos, State.emitAll_of_length s (paddedTail_length c _ _ hsig)]
  rfl

/-! Decoding: the writes of an accepted symbol. -/

/-- An accepted symbol that leaves the block short is held (R204, R234). -/
theorem acceptSymbol_short (h : s.blk.toNat + 1 < bitSyms c) (acc n : Nat) (o : Word) :
    acceptSymbol c acc n o s = { s with
      acc := BitVec.ofNat 64 acc, blk := s.blk + 1, padCnt := BitVec.ofNat 3 n, padOff := o
      offset := s.offset + 1 } := by
  simp only [acceptSymbol, if_pos h, State.hold_succ]
  rfl

section

variable (hfull : bitSyms c ≤ s.blk.toNat + 1) (acc : Nat) (o : Word)

include hfull

/-- An accepted symbol that fills a block without padding emits its N bytes (R204, R234). -/
theorem acceptSymbol_full {k : Nat} (hk : sigBytes c (bitSyms c) = k) :
    acceptSymbol c acc 0 o s = { s with
      fifo := s.fifo ++ blockBytesOf (blockBytes c) acc k
      outCnt := s.outCnt + BitVec.ofNat 32 k
      acc := 0, blk := 0, padCnt := 0
      offset := s.offset + 1 } := by
  simp only [acceptSymbol, if_neg hfull.not_gt, Nat.sub_zero, hk,
    State.emitAll_of_length s (blockBytesOf_length _ acc k)]
  rfl

/-- The padding symbol that fills a block emits the K(M - PADCNT) bytes before the padding and closes the input (R165,
R204, R234). -/
theorem acceptSymbol_full_of_pad {n k : Nat} (hk : sigBytes c (bitSyms c - (n + 1)) = k) :
    acceptSymbol c acc (n + 1) o s = { s with
      fifo := s.fifo ++ blockBytesOf (blockBytes c) acc k
      outCnt := s.outCnt + BitVec.ofNat 32 k
      closed := true, padOff := o
      acc := 0, blk := 0, padCnt := 0
      offset := s.offset + 1 } := by
  simp only [acceptSymbol, if_neg hfull.not_gt, hk, State.emitAll_of_length s (blockBytesOf_length _ acc k),
    State.closeInput, if_pos n.succ_pos]
  rfl

end

/-! Decoding: the checks of PUSH in their order (R408). -/

/-- Once the input is closed every symbol is rejected at its first padding (R204, R234). -/
theorem pushPaddedDec_closed (h : s.closed = true) : pushPaddedDec c u s = .error ⟨.badCharacter, s.padOff⟩ := by
  rw [pushPaddedDec, if_pos h]

section

variable (hopen : s.closed = false)

include hopen

/-- A symbol outside the charset is rejected. -/
theorem pushPaddedDec_invalid (hu : classOf c u = .invalid) :
    pushPaddedDec c u s = .error ⟨.badCharacter, s.offset⟩ := by
  simp [pushPaddedDec, hopen, hu]

/-- A first padding symbol is rejected where no legal short block ends (R164). -/
theorem pushPaddedDec_pad_early (hu : classOf c u = .pad) (hfirst : s.padCnt = 0) (hpos : s.blk.toNat ∉ sigSet c) :
    pushPaddedDec c u s = .error ⟨.badCharacter, s.offset⟩ := by
  simp [pushPaddedDec, hopen, hu, hfirst, hpos]

/-- Any other padding symbol is accepted as a 0 digit (R204, R234). -/
theorem pushPaddedDec_pad (hp : padded c = true) (hu : classOf c u = .pad)
    (hlegal : s.padCnt ≠ 0 ∨ s.blk.toNat ∈ sigSet c) :
    pushPaddedDec c u s = .ok (acceptSymbol c (s.acc.toNat * radix c) (s.padCnt.toNat + 1)
      (if s.padCnt = 0 then s.offset else s.padOff) s) := by
  have hpos : 0 < radix c := by cases c <;> decide
  have hcheck : ¬(s.padCnt = 0 ∧ s.blk.toNat ∉ sigSet c) := by tauto
  simp only [pushPaddedDec, hopen, hu, if_neg hcheck, packDigit_eq_packRadix hp _ hpos]
  rfl

/-- A digit after padding is rejected. -/
theorem pushPaddedDec_digit_late {d : Nat} (hu : classOf c u = .digit d) (hpad : s.padCnt ≠ 0) :
    pushPaddedDec c u s = .error ⟨.badCharacter, s.offset⟩ := by
  simp only [pushPaddedDec, hopen, hu, if_pos hpad]
  rfl

/-- A digit before any padding is accepted (R204, R234). -/
theorem pushPaddedDec_digit (hp : padded c = true) {d : Nat} (hu : classOf c u = .digit d) (hpad : s.padCnt = 0) :
    pushPaddedDec c u s = .ok (acceptSymbol c (s.acc.toNat * radix c + d) 0 s.padOff s) := by
  simp only [pushPaddedDec, hopen, hu, hpad, packDigit_eq_packRadix hp _ (classOf_digit_lt c u d hu)]
  rfl

end

/-! Decoding: END. -/

/-- What R166 asks of a legal short block. -/
theorem State.legalShort_iff (s : State) (c : Codec) :
    s.legalShort c = true ↔ s.cfgr.optpad = true ∧ s.padCnt = 0 ∧ s.blk.toNat ∈ sigSet c := by
  simp [State.legalShort, and_assoc]

/-- END emits the K(g) bytes of a legal short block of g symbols (R205, R235). -/
theorem endPaddedDec_short (hpos : s.blk.toNat ≠ 0) (hlegal : s.legalShort c = true) {k : Nat}
    (hk : sigBytes c s.blk.toNat = k) :
    endPaddedDec c s = .ok { s with
      fifo := s.fifo ++
        blockBytesOf (blockBytes c) (s.acc.toNat * (2 ^ digitBits c) ^ (bitSyms c - s.blk.toNat)) k
      outCnt := s.outCnt + BitVec.ofNat 32 k
      acc := 0, blk := 0, padCnt := 0
      phase := .done } := by
  simp only [endPaddedDec, if_neg hpos, if_pos hlegal, hk, justifySyms_eq,
    State.emitAll_of_length s (blockBytesOf_length _ _ k)]
  rfl

/-- END rejects every other block in progress (R205, R235). -/
theorem endPaddedDec_illegal (hpos : s.blk.toNat ≠ 0) (hlegal : ¬s.legalShort c = true) :
    endPaddedDec c s = .error ⟨.badLength, s.offset⟩ := by
  simp only [endPaddedDec, if_neg hpos, if_neg hlegal]

end

end Sys2Proof.Machine
end

section
/-! Base32 (spec/43): PUSH and END of its two modes. -/

namespace Sys2Proof.Machine

open Sys2Proof Sys2Proof.Config

/-! The constants of Base32 and the units of its blocks. -/

/-- S(k) of a short block, read off the statements' table (R151). -/
theorem sigDigits_b32_of_mem {k sig : Nat} (h : (k, sig) ∈ [(1, 2), (2, 4), (3, 5), (4, 7)]) :
    0 < k ∧ sigDigits .b32 k = sig ∧ sig ≤ 8 := by
  have htable : ∀ p ∈ [(1, 2), (2, 4), (3, 5), (4, 7)], 0 < p.1 ∧ sigDigits .b32 p.1 = p.2 ∧ p.2 ≤ 8 := by decide
  exact htable (k, sig) h

/-- K(g) of a legal short block, read off the statements' table (R151). -/
theorem sigBytes_b32_of_mem {g k : Nat} (h : (g, k) ∈ [(2, 1), (4, 2), (5, 3), (7, 4)]) :
    g ≠ 0 ∧ g ∈ sigSet .b32 ∧ sigBytes .b32 g = k := by
  have htable : ∀ p ∈ [(2, 1), (4, 2), (5, 3), (7, 4)], p.1 ≠ 0 ∧ p.1 ∈ sigSet .b32 ∧ sigBytes .b32 p.1 = p.2 := by
    decide
  exact htable (g, k) h

/-- K(8 - PADCNT) of a completed padded block, read off the statements' table (R151). -/
theorem sigBytes_b32_of_pads {pads k : Nat} (h : (pads, k) ∈ [(1, 4), (3, 3), (4, 2), (6, 1)]) :
    sigBytes .b32 (bitSyms .b32 - pads) = k := by
  have htable : ∀ p ∈ [(1, 4), (3, 3), (4, 2), (6, 1)], sigBytes .b32 (bitSyms .b32 - p.1) = p.2 := by decide
  exact htable (pads, k) h

/-- The symbols of a short final block (R203). -/
theorem paddedTail_b32 (acc k : Nat) :
    paddedTail .b32 acc k = ((List.range (sigDigits .b32 k)).map fun i =>
      charsetSymbol .b32 (acc * 256 ^ (5 - k) / 32 ^ (7 - i) % 32)) ++
        List.replicate (8 - sigDigits .b32 k) 0x3D#8 := by
  rw [paddedTail, bitSymbols_b32, leftJustify_eq, padSymbol_b32, bitSyms_b32]
  rfl

/-- The first `k` bytes of a block (R159). -/
theorem blockBytesOf_b32 (v k : Nat) :
    blockBytesOf (blockBytes .b32) v k = (List.range k).map fun j => BitVec.ofNat 8 (v / 256 ^ (4 - j)) :=
  blockBytesOf_eq (blockBytes .b32) v k

/-! The modes. -/

/-- Settles O36: the block is short below the fifth byte, and full at it. -/
theorem pushEncodesBase32 : Obligations.PushEncodesBase32 := by
  refine fun s u h => ⟨fun hblk => ?short, fun hblk => ?full⟩
  case short =>
    have hshort : s.blk.toNat + 1 < blockBytes .b32 := by simp only [blockBytes]; omega
    rw [exec_push_padded_enc rfl h, pushPaddedEnc_short hshort, commit_ok]
  case full =>
    have hfull : blockBytes .b32 ≤ s.blk.toNat + 1 := by simp only [blockBytes]; omega
    rw [exec_push_padded_enc rfl h, pushPaddedEnc_full hfull, bitSyms_b32, bitSymbols_b32]
    rfl

/-- Settles O38: by the flush of a short block, with S(k) from the table. -/
theorem endFlushesBase32 : Obligations.EndFlushesBase32 := by
  refine fun s h => ⟨exec_end_of_empty h, ?short⟩
  rintro k sig rfl hmem
  obtain ⟨hpos, rfl, hle⟩ := sigDigits_b32_of_mem hmem
  rw [exec_end_padded_enc rfl h, endPaddedEnc_short hpos (hle.trans_eq bitSyms_b32.symm), paddedTail_b32, bitSyms_b32,
    List.append_assoc]
  rfl

/-- Settles O40: CLOSED is tested first, then the symbol's class and the padding before it choose the rule's case, and
BLK tells a symbol inside the block from the one that completes it. -/
theorem pushDecodesBase32 : Obligations.PushDecodesBase32 := by
  intro s u h
  rw [exec_push_padded_dec rfl h]
  refine ⟨fun hclosed => ?closed, fun hopen =>
    ⟨fun hu => ?invalid, ?padEarly, fun hu hne hpad => ?digitLate, ?digitShort, ?digitFull, ?padShort, ?padFull⟩⟩
  case closed =>
    rw [pushPaddedDec_closed hclosed]
    rfl
  case invalid =>
    rw [pushPaddedDec_invalid hopen (classOf_of_not_mem .b32 (by simp) u hu)]
    rfl
  case padEarly =>
    rintro rfl hfirst hpos
    rw [pushPaddedDec_pad_early hopen classOf_b32_pad hfirst (sigSet_b32 ▸ hpos)]
    rfl
  case digitLate =>
    obtain ⟨d, -, hclass⟩ := classOf_data .b32 rfl u hu hne
    rw [pushPaddedDec_digit_late hopen hclass hpad]
    rfl
  case digitShort =>
    rintro d hd rfl hpad hblk
    have hshort : s.blk.toNat + 1 < bitSyms .b32 := by rw [bitSyms_b32]; omega
    rw [pushPaddedDec_digit hopen rfl (classOf_charsetSymbol .b32 (by simp) d hd) hpad, acceptSymbol_short hshort]
    have hkept : BitVec.ofNat 3 0 = s.padCnt := hpad.symm
    rw [hkept]
    rfl
  case digitFull =>
    rintro d hd rfl hpad hblk
    have hfull : bitSyms .b32 ≤ s.blk.toNat + 1 := by rw [bitSyms_b32]; omega
    have hbytes : sigBytes .b32 (bitSyms .b32) = 5 := by decide
    rw [pushPaddedDec_digit hopen rfl (classOf_charsetSymbol .b32 (by simp) d hd) hpad,
      acceptSymbol_full hfull _ _ hbytes, blockBytesOf_b32]
    rfl
  case padShort =>
    rintro rfl hlegal hblk
    have hshort : s.blk.toNat + 1 < bitSyms .b32 := by rw [bitSyms_b32]; omega
    rw [pushPaddedDec_pad hopen rfl classOf_b32_pad (sigSet_b32 ▸ hlegal), acceptSymbol_short hshort, commit_ok,
      BitVec.ofNat_add, BitVec.ofNat_toNat, BitVec.setWidth_eq]
    rfl
  case padFull =>
    rintro pads k rfl hblk rfl hmem
    have hfull : bitSyms .b32 ≤ s.blk.toNat + 1 := by rw [bitSyms_b32]; omega
    have hlegal : s.blk.toNat ∈ sigSet .b32 := by rw [hblk]; decide
    rw [pushPaddedDec_pad hopen rfl classOf_b32_pad (.inr hlegal),
      acceptSymbol_full_of_pad hfull _ _ (sigBytes_b32_of_pads hmem), blockBytesOf_b32]
    rfl

/-- Settles O42: by what R166 asks of the block in progress, with K(g) from the table. -/
theorem endDecodesBase32 : Obligations.EndDecodesBase32 := by
  refine fun s h => ⟨exec_end_of_empty h, ?short, fun hblk hcases => ?illegal⟩
  case short =>
    rintro g k rfl hmem hoptpad hpad
    obtain ⟨hpos, hsig, hbytes⟩ := sigBytes_b32_of_mem hmem
    have hlegal := (s.legalShort_iff .b32).mpr ⟨hoptpad, hpad, hsig⟩
    rw [exec_end_padded_dec rfl h, endPaddedDec_short hpos hlegal hbytes, blockBytesOf_b32, bitSyms_b32]
    rfl
  case illegal =>
    have hpos : s.blk.toNat ≠ 0 := fun hz => hblk (State.blk_eq_zero hz)
    have hlegal : ¬s.legalShort .b32 = true := by
      rw [State.legalShort_iff, sigSet_b32]
      rintro ⟨hoptpad, hpad, hsig⟩
      rcases hcases with hstrict | hpadded | hsize
      · simp [hstrict] at hoptpad
      · exact hpadded hpad
      · exact hsize hsig
    rw [exec_end_padded_dec rfl h, endPaddedDec_illegal hpos hlegal]
    rfl

end Sys2Proof.Machine
end

section
/-! Base64 (spec/44): PUSH and END of its two modes. -/

namespace Sys2Proof.Machine

open Sys2Proof Sys2Proof.Config

/-! A decode PUSH as its rule's outcome. -/

section

variable {c : Codec} {s : State} {u : Byte} (hp : padded c = true) (h : s.Admits c .dec)

include hp h

/-- A check of the rule that fails is latched (R404). -/
theorem exec_push_padded_dec_of_error {o : Word} (hrule : pushPaddedDec c u s = .error ⟨.badCharacter, o⟩) :
    exec (.push u) s = .next (s.withError .badCharacter o) := by
  rw [exec_push_padded_dec hp h, hrule]
  rfl

/-- The writes of the rule are committed when no check fails (R11). -/
theorem exec_push_padded_dec_of_ok {t : State} (hrule : pushPaddedDec c u s = .ok t) :
    exec (.push u) s = .next t := by
  rw [exec_push_padded_dec hp h, hrule, commit_ok]

end

/-! The constants of Base64 and the units of its blocks, the constants read off the statements' tables (R151). -/

theorem sigDigits_b64_of_mem : ∀ p ∈ [(1, 2), (2, 3)], 0 < p.1 ∧ sigDigits .b64 p.1 = p.2 ∧ p.2 ≤ 4 := by decide

theorem sigBytes_b64_of_mem : ∀ p ∈ [(2, 1), (3, 2)], p.1 ≠ 0 ∧ p.1 ∈ sigSet .b64 ∧ sigBytes .b64 p.1 = p.2 := by decide

theorem sigBytes_b64_of_pads : ∀ p ∈ [(1, 2), (2, 1)], sigBytes .b64 (bitSyms .b64 - p.1) = p.2 := by decide

/-- The symbols of a short final block (R233). -/
theorem paddedTail_b64 (acc k : Nat) :
    paddedTail .b64 acc k = ((List.range (sigDigits .b64 k)).map fun i =>
      charsetSymbol .b64 (acc * 256 ^ (3 - k) / 64 ^ (3 - i) % 64)) ++
        List.replicate (4 - sigDigits .b64 k) 0x3D#8 := by
  rw [paddedTail, bitSymbols_b64, leftJustify_eq, padSymbol_b64, bitSyms_b64]
  rfl

/-- The first `k` bytes of a block (R159). -/
theorem blockBytesOf_b64 (v k : Nat) :
    blockBytesOf (blockBytes .b64) v k = (List.range k).map fun j => BitVec.ofNat 8 (v / 256 ^ (2 - j)) :=
  blockBytesOf_eq (blockBytes .b64) v k

/-! The modes. -/

/-- Settles O37: a byte leaves the block short below BLK = 2 and fills it there. -/
theorem pushEncodesBase64 : Obligations.PushEncodesBase64 := by
  refine fun s u h => ⟨fun hblk => ?short, fun hblk => ?full⟩
  case short =>
    have hshort : s.blk.toNat + 1 < blockBytes .b64 := Nat.succ_lt_succ hblk
    rw [exec_push_padded_enc rfl h, pushPaddedEnc_short hshort, commit_ok]
  case full =>
    have hfull : blockBytes .b64 ≤ s.blk.toNat + 1 := by rw [hblk]; rfl
    rw [exec_push_padded_enc rfl h, pushPaddedEnc_full hfull, bitSyms_b64, bitSymbols_b64]
    rfl

/-- Settles O39: BLK = 0 is the boundary of every mode, and a short block is flushed as its S(k) digits and padding. -/
theorem endFlushesBase64 : Obligations.EndFlushesBase64 := by
  refine fun s h => ⟨exec_end_of_empty h, ?short⟩
  rintro k sig rfl hmem
  obtain ⟨hpos, rfl, hle⟩ : 0 < s.blk.toNat ∧ sigDigits .b64 s.blk.toNat = sig ∧ sig ≤ 4 :=
    sigDigits_b64_of_mem _ hmem
  rw [exec_end_padded_enc rfl h, endPaddedEnc_short hpos (hle.trans_eq bitSyms_b64.symm), paddedTail_b64, bitSyms_b64,
    List.append_assoc]
  rfl

/-- Settles O41: the errors are the failed checks in their order, CLOSED before the symbol's class and its padding; BLK
says whether an accepted symbol is held or completes the block. -/
theorem pushDecodesBase64 : Obligations.PushDecodesBase64 := by
  intro s u h
  have hraise {o : Word} := exec_push_padded_dec_of_error (u := u) (o := o) rfl h
  refine ⟨fun hclosed => hraise (pushPaddedDec_closed hclosed), fun hopen =>
    ⟨?invalid, ?padEarly, ?digitLate, ?accepted⟩⟩
  case invalid => exact fun hu => hraise (pushPaddedDec_invalid hopen (classOf_of_not_mem .b64 (by decide) u hu))
  case padEarly =>
    rintro rfl hfirst hpos
    exact hraise (pushPaddedDec_pad_early hopen classOf_b64_pad hfirst (sigSet_b64 ▸ hpos))
  case digitLate =>
    intro hu hne hpad
    obtain ⟨d, -, hclass⟩ := classOf_data .b64 rfl u hu hne
    exact hraise (pushPaddedDec_digit_late hopen hclass hpad)
  case accepted =>
    have hshort (hblk : s.blk.toNat < 3) : s.blk.toNat + 1 < bitSyms .b64 := by rw [bitSyms_b64]; omega
    have hfull (hblk : s.blk.toNat = 3) : bitSyms .b64 ≤ s.blk.toNat + 1 := by rw [bitSyms_b64, hblk]
    have hdigit {d : Nat} (hd : d < 64) (hu : u = charsetSymbol .b64 d) (hpad : s.padCnt = 0) :=
      exec_push_padded_dec_of_ok rfl h
        (pushPaddedDec_digit hopen rfl (hu ▸ classOf_charsetSymbol .b64 (by decide) d hd) hpad)
    have hpadding (hu : u = 0x3D#8) (hlegal : s.padCnt ≠ 0 ∨ s.blk.toNat ∈ [2, 3]) :=
      exec_push_padded_dec_of_ok rfl h
        (pushPaddedDec_pad hopen rfl (hu ▸ classOf_b64_pad) (sigSet_b64 ▸ hlegal))
    refine ⟨fun d hd hu hpad hblk => ?digitHeld, fun d hd hu hpad hblk => ?digitFills,
      fun hu hlegal hblk => ?padHeld, ?padFills⟩
    case digitHeld =>
      have hkept : BitVec.ofNat 3 0 = s.padCnt := hpad.symm
      rw [hdigit hd hu hpad, acceptSymbol_short (hshort hblk), hkept]
      rfl
    case digitFills =>
      have hbytes : sigBytes .b64 (bitSyms .b64) = 3 := by decide
      rw [hdigit hd hu hpad, acceptSymbol_full (hfull hblk) _ _ hbytes, blockBytesOf_b64]
      rfl
    case padHeld =>
      rw [hpadding hu hlegal, acceptSymbol_short (hshort hblk), BitVec.ofNat_add, BitVec.ofNat_toNat,
        BitVec.setWidth_eq]
      rfl
    case padFills =>
      rintro pads k hu hblk rfl hmem
      have hlegal : s.blk.toNat ∈ [2, 3] := by rw [hblk]; decide
      rw [hpadding hu (.inr hlegal), acceptSymbol_full_of_pad (hfull hblk) _ _ (sigBytes_b64_of_pads _ hmem),
        blockBytesOf_b64]
      rfl

/-- Settles O43: past the boundary of every mode, the legality of the short block left decides, and the third clause
lists the ways to miss it. -/
theorem endDecodesBase64 : Obligations.EndDecodesBase64 := by
  refine fun s h => ⟨exec_end_of_empty h, ?short, fun hblk hcases => ?illegal⟩
  case short =>
    rintro g k rfl hmem hoptpad hpad
    obtain ⟨hpos, hsig, hbytes⟩ := sigBytes_b64_of_mem _ hmem
    have hlegal := (s.legalShort_iff .b64).mpr ⟨hoptpad, hpad, hsig⟩
    rw [exec_end_padded_dec rfl h, endPaddedDec_short hpos hlegal hbytes, blockBytesOf_b64, bitSyms_b64]
    rfl
  case illegal =>
    have hpos : s.blk.toNat ≠ 0 := fun hz => hblk (State.blk_eq_zero hz)
    have hlegal : ¬s.legalShort .b64 = true := by
      rw [State.legalShort_iff, sigSet_b64]
      rintro ⟨hoptpad, hpad, hsig⟩
      rcases hcases with hstrict | hpadded | hsize
      · exact Bool.false_ne_true (hstrict.symm.trans hoptpad)
      · exact hpadded hpad
      · exact hsize hsig
    rw [exec_end_padded_dec rfl h, endPaddedDec_illegal hpos hlegal]
    rfl

end Sys2Proof.Machine
end

section
/-! The rules that Base85 and Base36 share (spec/45, spec/46), case by case: one equation for each outcome of PUSH and
END in a radix codec. -/

namespace Sys2Proof.Machine

open Sys2Proof Sys2Proof.Config

/-! The mode rules of END in a radix codec (R325). -/

section

variable {c : Codec} {s : State} (hr : c = .b85 ∨ c = .b36)

include hr

theorem exec_end_radix_enc (h : s.Admits c .enc) : exec .endOp s = commit s (endRadixEnc c s) := by
  rw [exec_end_of_admits h, endRule, h.codec, h.dir]
  rcases hr with rfl | rfl <;> rfl

theorem exec_end_radix_dec (h : s.Admits c .dec) : exec .endOp s = commit s (endRadixDec c s) := by
  rw [exec_end_of_admits h, endRule, h.codec, h.dir]
  rcases hr with rfl | rfl <;> rfl

end

/-! Encoding. -/

section

variable {c : Codec} {s : State} {full : Nat → List Byte} {u : Byte}

/-- A byte that leaves the block short is held (R261, R291). -/
theorem pushRadixEnc_short (h : s.blk.toNat + 1 < blockBytes c) :
    pushRadixEnc c full u s = .ok { s with
      acc := BitVec.ofNat 64 (s.acc.toNat * 256 + u.toNat), blk := s.blk + 1, offset := s.offset + 1 } := by
  simp only [pushRadixEnc, if_pos h, pack8_eq, State.hold_succ]
  rfl

/-- The byte that fills the block emits the full block's symbols (R261, R291). -/
theorem pushRadixEnc_full (h : blockBytes c ≤ s.blk.toNat + 1) {us : List Byte} {n : Nat}
    (hus : full (s.acc.toNat * 256 + u.toNat) = us) (hn : us.length = n) :
    pushRadixEnc c full u s = .ok { s with
      fifo := s.fifo ++ us
      outCnt := s.outCnt + BitVec.ofNat 32 n
      acc := 0, blk := 0, padCnt := 0
      offset := s.offset + 1 } := by
  simp only [pushRadixEnc, if_neg h.not_gt, pack8_eq, hus, State.emitAll_of_length s hn]
  rfl

/-- END flushes a short block of k bytes as the first n(k) of its M digits (R262, R292). -/
theorem endRadixEnc_short {m n : Nat} (hm : blockSyms s.params c = m) (hpos : 0 < s.blk.toNat)
    (hn : shortSyms (radix c) m s.blk.toNat = n) :
    endRadixEnc c s = .ok { s with
      fifo := s.fifo ++ radixSymbols c m (s.acc.toNat * 256 ^ (blockBytes c - s.blk.toNat)) n
      outCnt := s.outCnt + BitVec.ofNat 32 n
      acc := 0, blk := 0, padCnt := 0
      phase := .done } := by
  simp only [endRadixEnc, if_pos hpos, hm, hn, leftJustify_eq,
    State.emitAll_of_length s (radixSymbols_length c m _ n)]
  rfl

end

/-! Decoding: PUSH. -/

theorem groupValueBytes_length (v k : Nat) : (groupValueBytes v k).length = k := by simp [groupValueBytes]

section

variable {c : Codec} {s : State} {u : Byte}

/-- A symbol that is no digit of the codec is rejected (R264, R293). -/
theorem pushRadixDec_invalid (hu : classOf c u = .invalid) :
    pushRadixDec c u s = .error ⟨.badCharacter, s.offset⟩ := by
  simp only [pushRadixDec, hu]

/-- A digit joins the group (R264, R293). -/
theorem pushRadixDec_digit {d : Nat} (hu : classOf c u = .digit d) : pushRadixDec c u s = pushRadixDigit c d s := by
  simp only [pushRadixDec, hu]

variable {d v : Nat} (hv : v = s.acc.toNat * radix c + d)

include hv

/-- A digit that leaves the group short is held (R264, R293). -/
theorem pushRadixDigit_short (h : s.blk.toNat + 1 < blockSyms s.params c) :
    pushRadixDigit c d s = .ok { s with
      acc := BitVec.ofNat 64 v, blk := s.blk + 1, offset := s.offset + 1 } := by
  simp only [pushRadixDigit, packRadix, ← hv, if_pos h, State.hold_succ]
  rfl

variable (hfull : blockSyms s.params c ≤ s.blk.toNat + 1)

include hfull

/-- The digit that fills a group out of range is rejected (R161). -/
theorem pushRadixDigit_overflow (ho : overflows s.params v = true) :
    pushRadixDigit c d s = .error ⟨.badCharacter, s.offset⟩ := by
  simp only [pushRadixDigit, packRadix, ← hv, if_neg hfull.not_gt, if_pos ho]

/-- The digit that fills any other group emits its 4 bytes (R264, R293). -/
theorem pushRadixDigit_full (ho : overflows s.params v = false) :
    pushRadixDigit c d s = .ok { s with
      fifo := s.fifo ++ groupValueBytes v 4
      outCnt := s.outCnt + 4
      acc := 0, blk := 0, padCnt := 0
      offset := s.offset + 1 } := by
  simp only [pushRadixDigit, packRadix, ← hv, if_neg hfull.not_gt, ho, blockBytesOf_mod,
    State.emitAll_of_length s (groupValueBytes_length v 4)]
  rfl

end

/-! Decoding: END. -/

section

variable {c : Codec} {s : State} {m g : Nat} (hm : blockSyms s.params c = m) (hg : s.blk.toNat = g) (hpos : g ≠ 0)

include hm hg hpos

/-- END rejects a group of a size that no short block has (R265, R294). -/
theorem endRadixDec_illegal (hsize : g ∉ groupSet (radix c) m) :
    endRadixDec c s = .error ⟨.badLength, s.offset⟩ := by
  rw [endRadixDec_eq hm hg rfl, if_neg hpos, if_pos hsize]

variable (hsize : g ∈ groupSet (radix c) m) {v : Nat}
  (hv : v = s.acc.toNat * radix c ^ (m - g) + (radix c ^ (m - g) - 1))

include hsize hv

/-- END rejects a filled group out of range at its last symbol (R161, R404). -/
theorem endRadixDec_overflow (ho : overflows s.params v = true) :
    endRadixDec c s = .error ⟨.badCharacter, s.offset - 1⟩ := by
  rw [endRadixDec_eq hm hg hv.symm, if_neg hpos, if_neg (not_not_intro hsize), if_pos ho]

/-- END emits the Kr(g) bytes of any other filled group (R265, R294). -/
theorem endRadixDec_filled (ho : overflows s.params v = false) {k : Nat} (hk : groupBytes (radix c) m g = k) :
    endRadixDec c s = .ok { s with
      fifo := s.fifo ++ groupValueBytes v k
      outCnt := s.outCnt + BitVec.ofNat 32 k
      acc := 0, blk := 0, padCnt := 0
      phase := .done } := by
  rw [endRadixDec_eq hm hg hv.symm, if_neg hpos, if_neg (not_not_intro hsize), if_neg (ne_true_of_eq_false ho), hk,
    blockBytesOf_mod, State.emitAll_of_length s (groupValueBytes_length v k)]
  rfl

end

end Sys2Proof.Machine
end

section
/-! Base85 (spec/45): PUSH and END of its two modes. -/

namespace Sys2Proof.Machine

open Sys2Proof Sys2Proof.Config

/-! The mode rules of PUSH (R325). -/

theorem exec_push_b85_enc {s : State} (h : s.Admits .b85 .enc) (u : Byte) :
    exec (.push u) s = commit s (pushRadixEnc .b85 (fullB85 s.cfgr.foldz) u s) := by
  rw [exec_push_of_admits h, pushRule, h.codec, h.dir]
  rfl

theorem exec_push_b85_dec {s : State} (h : s.Admits .b85 .dec) (u : Byte) :
    exec (.push u) s = commit s (pushB85Dec u s) := by
  rw [exec_push_of_admits h, pushRule, h.codec, h.dir]

/-! The zero fold (R260). -/

/-- A zero block folds to `'z'` with FOLDZ = 1. -/
theorem fullB85_fold : fullB85 true 0 = [0x7A#8] := rfl

/-- Every other full block is its five digits: the fold tests the whole value. -/
theorem fullB85_digits {foldz : Bool} {v : Nat} (h : foldz = false ∨ v ≠ 0) :
    fullB85 foldz v = radixSymbols .b85 5 v 5 :=
  if_neg (not_and_or.mpr (h.imp_left ne_true_of_eq_false))

section

variable {s : State} {u : Byte}

/-- `'z'` at a group boundary with FOLDZ = 1 is four zero bytes (R264). -/
theorem pushB85Dec_fold (hu : u = foldSymbol) (hfoldz : s.cfgr.foldz = true) (hblk : s.blk = 0) :
    pushB85Dec u s = .ok { s with
      fifo := s.fifo ++ [0#8, 0#8, 0#8, 0#8], outCnt := s.outCnt + 4, offset := s.offset + 1 } := by
  rw [pushB85Dec, if_pos hu, if_pos ⟨hfoldz, hblk⟩, State.emitAll_of_length s List.length_replicate]
  rfl

/-- Every other `'z'` is rejected (R264). -/
theorem pushB85Dec_fold_misplaced (hu : u = foldSymbol) (h : s.cfgr.foldz = false ∨ s.blk ≠ 0) :
    pushB85Dec u s = .error ⟨.badCharacter, s.offset⟩ := by
  rw [pushB85Dec, if_pos hu, if_neg (not_and_or.mpr (h.imp_left ne_true_of_eq_false))]

/-- A symbol other than `'z'` follows the rule of the radix codecs (R264). -/
theorem pushB85Dec_of_ne_fold (hu : u ≠ foldSymbol) : pushB85Dec u s = pushRadixDec .b85 u s := if_neg hu

end

/-! The blocks of Base85: M = 5, n(k) = k + 1 and Kr(g) = g - 1 (R150, R152). -/

theorem blockSyms_b85 (p : Params) : blockSyms p .b85 = 5 := rfl

theorem shortSyms_b85_eq_succ : ∀ k ∈ [1, 2, 3], shortSyms 85 5 k = k + 1 := by decide

theorem groupBytes_b85_eq_pred : ∀ g ∈ groupSet 85 5, groupBytes 85 5 g = g - 1 := by decide

/-! The modes. -/

/-- Settles O44: a byte leaves the block short below BLK = 3 and fills it there, and the whole value of the full block
says whether it is folded. -/
theorem pushEncodesBase85 : Obligations.PushEncodesBase85 := by
  rintro s u v h rfl
  rw [exec_push_b85_enc h]
  have hfull (hblk : s.blk.toNat = 3) : blockBytes .b85 ≤ s.blk.toNat + 1 := by rw [hblk]; rfl
  refine ⟨fun hblk => ?short, fun hblk hfoldz hzero => ?fold, fun hblk hdigits => ?digits⟩
  case short =>
    have hshort : s.blk.toNat + 1 < blockBytes .b85 := Nat.succ_lt_succ hblk
    rw [pushRadixEnc_short hshort, commit_ok]
  case fold =>
    rw [hfoldz, pushRadixEnc_full (hfull hblk) (hzero ▸ fullB85_fold) rfl]
    rfl
  case digits =>
    rw [pushRadixEnc_full (hfull hblk) (fullB85_digits hdigits) (radixSymbols_length .b85 5 _ 5), radixSymbols_b85]
    rfl

/-- Settles O45: the flush of a short block looks at no fold, and n(k) = k + 1. -/
theorem endFlushesBase85 : Obligations.EndFlushesBase85 := by
  refine fun s h => ⟨exec_end_of_empty h, ?short⟩
  rintro k rfl hpos hle
  have hsyms : shortSyms (radix .b85) 5 s.blk.toNat = s.blk.toNat + 1 :=
    shortSyms_b85_eq_succ _ (by simp only [List.mem_cons, List.not_mem_nil, or_false]; omega)
  rw [exec_end_radix_enc (.inl rfl) h, endRadixEnc_short (blockSyms_b85 s.params) hpos hsyms, radixSymbols_b85]
  rfl

/-- Settles O46: `'z'` is taken before the digits, the symbol's class tells a digit from the rest, BLK a digit that is
held from the one that fills the group, and the range check the two outcomes of a full group. -/
theorem pushDecodesBase85 : Obligations.PushDecodesBase85 := by
  intro s u h
  rw [exec_push_b85_dec h]
  refine ⟨fun hu hfoldz hblk => ?fold, fun hu hcases => ?foldMisplaced, fun hu hout => ?outside,
    fun d v hd hu hv => ?digit⟩
  case fold => rw [pushB85Dec_fold hu hfoldz hblk, commit_ok]
  case foldMisplaced =>
    rw [pushB85Dec_fold_misplaced hu hcases]
    rfl
  case outside =>
    have hclass : classOf .b85 u = .invalid := (classOf_b85 u).trans (if_pos hout)
    rw [pushB85Dec_of_ne_fold hu, pushRadixDec_invalid hclass]
    rfl
  case digit =>
    have hne : u ≠ foldSymbol := by
      rintro rfl
      simp only [foldSymbol, BitVec.toNat_ofNat] at hu
      omega
    have hfull (hblk : s.blk.toNat = 4) : blockSyms s.params .b85 ≤ s.blk.toNat + 1 := by rw [hblk]; rfl
    rw [pushB85Dec_of_ne_fold hne, pushRadixDec_digit (classOf_b85_digit d u hd hu)]
    refine ⟨fun hblk => ?held, fun hblk hgt herr => ?overflow, fun hblk hrange => ?filled⟩
    case held =>
      have hshort : s.blk.toNat + 1 < blockSyms s.params .b85 := Nat.succ_lt_succ hblk
      rw [pushRadixDigit_short hv hshort, commit_ok]
    case overflow =>
      rw [pushRadixDigit_overflow hv (hfull hblk) (overflows_of_gt hgt herr)]
      rfl
    case filled => rw [pushRadixDigit_full hv (hfull hblk) (overflows_of_le hrange), commit_ok]

/-- Settles O47: BLK = 0 is the boundary of every mode, 1 the one group size outside GSET, and any other group is filled
and checked for range. -/
theorem endDecodesBase85 : Obligations.EndDecodesBase85 := by
  refine fun s h => ⟨exec_end_of_empty h, fun hblk => ?illegal, ?legal⟩
  case illegal =>
    have hone : s.blk.toNat = 1 := by rw [hblk]; rfl
    have hsize : 1 ∉ groupSet (radix .b85) 5 := by decide
    rw [exec_end_radix_dec (.inl rfl) h, endRadixDec_illegal (blockSyms_b85 s.params) hone Nat.one_ne_zero hsize]
    rfl
  case legal =>
    intro g v hg hlo hhi hv
    have hpos : g ≠ 0 := by omega
    have hsize : g ∈ groupSet (radix .b85) 5 := by
      simp only [radix, groupSet_b85, List.mem_cons, List.not_mem_nil, or_false]
      omega
    rw [exec_end_radix_dec (.inl rfl) h]
    refine ⟨fun hgt herr => ?overflow, fun hrange => ?filled⟩
    case overflow =>
      rw [endRadixDec_overflow (blockSyms_b85 s.params) hg hpos hsize hv (overflows_of_gt hgt herr)]
      rfl
    case filled =>
      rw [endRadixDec_filled (blockSyms_b85 s.params) hg hpos hsize hv (overflows_of_le hrange)
        (groupBytes_b85_eq_pred g hsize), commit_ok]

end Sys2Proof.Machine
end

section
/-! Base36 (spec/46): PUSH and END of its two modes, for both values of `B36_M`. -/

namespace Sys2Proof.Machine

open Sys2Proof Sys2Proof.Config

/-! The mode rules of PUSH (R325). -/

theorem exec_push_b36_enc {s : State} (h : s.Admits .b36 .enc) {m : Nat} (hm : blockSyms s.params .b36 = m) (u : Byte) :
    exec (.push u) s = commit s (pushRadixEnc .b36 (fun v => radixSymbols .b36 m v m) u s) := by
  subst hm
  rw [exec_push_of_admits h, pushRule, h.codec, h.dir]
  rfl

theorem exec_push_b36_dec {s : State} (h : s.Admits .b36 .dec) (u : Byte) :
    exec (.push u) s = commit s (pushRadixDec .b36 u s) := by
  rw [exec_push_of_admits h, pushRule, h.codec, h.dir]
  rfl

/-! The blocks of Base36: M = `B36_M` (R150), and n(k), GSET and Kr(g) read off the statements' tables (R152). -/

theorem blockSyms_b36 (p : Params) : blockSyms p .b36 = p.b36m.count := rfl

theorem b36m_count_of_mem : ∀ q ∈ [(B36M.seven, 7), (B36M.six, 6)], q.1.count = q.2 := by decide

theorem shortSyms_b36_of_mem :
    ∀ q ∈ [(B36M.seven, 7, 1, 3), (.seven, 7, 2, 4), (.seven, 7, 3, 6), (.six, 6, 1, 2), (.six, 6, 2, 3),
      (.six, 6, 3, 5)],
      q.1.count = q.2.1 ∧ 0 < q.2.2.1 ∧ shortSyms (radix .b36) q.2.1 q.2.2.1 = q.2.2.2 := by decide

theorem groupBytes_b36_of_mem :
    ∀ q ∈ [(B36M.seven, 7, 3, 1), (.seven, 7, 4, 2), (.seven, 7, 6, 3), (.six, 6, 2, 1), (.six, 6, 3, 2),
      (.six, 6, 5, 3)],
      q.1.count = q.2.1 ∧ q.2.2.1 ≠ 0 ∧ q.2.2.1 ∈ groupSet (radix .b36) q.2.1 ∧
        groupBytes (radix .b36) q.2.1 q.2.2.1 = q.2.2.2 := by decide

/-- The sizes no short group has, for each value of `B36_M` (R152). -/
theorem not_mem_groupSet_b36 {b : B36M} {g : Nat}
    (h : (b = .seven ∧ g ∉ [3, 4, 6]) ∨ (b = .six ∧ g ∉ [2, 3, 5])) : g ∉ groupSet (radix .b36) b.count := by
  rcases h with ⟨rfl, hg⟩ | ⟨rfl, hg⟩
  · exact groupSet_b36_seven ▸ hg
  · exact groupSet_b36_six ▸ hg

/-! The modes. -/

/-- Settles O48: a byte leaves the block short below BLK = 3 and fills it there, and with no fold the full block is
always its M digits. -/
theorem pushEncodesBase36 : Obligations.PushEncodesBase36 := by
  rintro s u v m h rfl hmem
  rw [exec_push_b36_enc h (b36m_count_of_mem _ hmem)]
  refine ⟨fun hblk => ?short, fun hblk => ?full⟩
  case short =>
    have hshort : s.blk.toNat + 1 < blockBytes .b36 := Nat.succ_lt_succ hblk
    rw [pushRadixEnc_short hshort, commit_ok]
  case full =>
    have hfull : blockBytes .b36 ≤ s.blk.toNat + 1 := by rw [hblk]; rfl
    rw [pushRadixEnc_full hfull rfl (radixSymbols_length .b36 m _ m), radixSymbols_b36]
    rfl

/-- Settles O49: the flush of a short block, with M and n(k) from the table. -/
theorem endFlushesBase36 : Obligations.EndFlushesBase36 := by
  refine fun s h => ⟨exec_end_of_empty h, ?short⟩
  rintro m k n rfl hmem
  obtain ⟨hm, hpos, hsyms⟩ : blockSyms s.params .b36 = m ∧ 0 < s.blk.toNat ∧
      shortSyms (radix .b36) m s.blk.toNat = n := shortSyms_b36_of_mem _ hmem
  rw [exec_end_radix_enc (.inr rfl) h, endRadixEnc_short hm hpos hsyms, radixSymbols_b36]
  rfl

/-- Settles O50: the symbol's class tells a digit from the rest, BLK a digit that is held from the one that fills the
group, and the range check the two outcomes of a full group. -/
theorem pushDecodesBase36 : Obligations.PushDecodesBase36 := by
  intro s u m h hmem
  have hm : blockSyms s.params .b36 = m := b36m_count_of_mem _ hmem
  rw [exec_push_b36_dec h]
  refine ⟨fun hu => ?outside, fun d v hd hu hv => ?digit⟩
  case outside =>
    rw [pushRadixDec_invalid (classOf_of_not_mem .b36 (by decide) u hu)]
    rfl
  case digit =>
    have hclass : classOf .b36 u = .digit d := hu ▸ classOf_charsetSymbol .b36 (by decide) d hd
    have hfull (hblk : s.blk.toNat + 1 = m) : blockSyms s.params .b36 ≤ s.blk.toNat + 1 := (hm.trans hblk.symm).le
    rw [pushRadixDec_digit hclass]
    refine ⟨fun hblk => ?held, fun hblk hgt herr => ?overflow, fun hblk hrange => ?filled⟩
    case held => rw [pushRadixDigit_short hv (hblk.trans_eq hm.symm), commit_ok]
    case overflow =>
      rw [pushRadixDigit_overflow hv (hfull hblk) (overflows_of_gt hgt herr)]
      rfl
    case filled => rw [pushRadixDigit_full hv (hfull hblk) (overflows_of_le hrange), commit_ok]

/-- Settles O51: past the boundary of every mode a size outside GSET is refused before the fill, and the range check
tells the two outcomes of a filled group. -/
theorem endDecodesBase36 : Obligations.EndDecodesBase36 := by
  refine fun s h => ⟨exec_end_of_empty h, fun hblk hsize => ?illegal, fun m g k v hg hmem hv => ?legal⟩
  case illegal =>
    have hpos : s.blk.toNat ≠ 0 := fun hz => hblk (State.blk_eq_zero hz)
    rw [exec_end_radix_dec (.inr rfl) h,
      endRadixDec_illegal (blockSyms_b36 s.params) rfl hpos (not_mem_groupSet_b36 hsize)]
    rfl
  case legal =>
    obtain ⟨hm, hpos, hsize, hbytes⟩ : blockSyms s.params .b36 = m ∧ g ≠ 0 ∧ g ∈ groupSet (radix .b36) m ∧
        groupBytes (radix .b36) m g = k := groupBytes_b36_of_mem _ hmem
    rw [exec_end_radix_dec (.inr rfl) h]
    refine ⟨fun hgt herr => ?overflow, fun hrange => ?filled⟩
    case overflow =>
      rw [endRadixDec_overflow hm hg hpos hsize hv (overflows_of_gt hgt herr)]
      rfl
    case filled => rw [endRadixDec_filled hm hg hpos hsize hv (overflows_of_le hrange) hbytes, commit_ok]

end Sys2Proof.Machine
end

section
/-! What a command word can do (R326, R336, R405), said once for legal and illegal words; from it, what leaves ERROR (R411),
what an encode operation can meet (R329), and when OVERRUN cannot be raised (R403, R455). -/

namespace Sys2Proof.Machine

open Sys2Proof Sys2Proof.Config

/-- What a command word can do to the block. Only a CFG and ABORT act in ERROR; in the other phases a word completes or
raises. -/
inductive WordEffect (w : Word) (s t : State) : Prop where
  /-- A legal CFG starts an operation, in every phase (R320). -/
  | cfg (i : Instr) (c : Cfg) (hdecode : decode w = .ok i) (hcfg : i.cfg? = some c) (ht : t = s.configure c)
  /-- ABORT goes idle, in every phase (R324). -/
  | abort (hdecode : decode w = .ok .abort) (ht : t = s.goIdle)
  /-- Every other word is ignored in ERROR (R405). -/
  | ignored (hphase : s.phase = .error) (ht : t = s)
  /-- An LCHK that finds no fault (R321). -/
  | checked (hphase : s.phase = .active) (ht : t = s)
  /-- A PUSH that completes (R322). -/
  | pushed (hphase : s.phase = .active) (heffect : PushEffect s t)
  /-- An END that completes (R323). -/
  | ended (hphase : s.phase = .active) (heffect : EndEffect s t)
  /-- The latch of an illegal word (R401) or of what a command raises (R400). -/
  | latched (e : Raise) (hphase : s.phase ≠ .error) (hraise : e.cause = .illegalCommand ∨ s.Raises e)
      (ht : t = s.latch e)

/-- Every word has one of these effects. -/
theorem execWord_effect {w : Word} {s t : State} (h : execWord w s = .next t) : WordEffect w s t := by
  cases hd : decode w with
  | error r =>
    rw [execWord_of_illegal hd, execIllegal_eq] at h
    cases h
    split
    case isTrue hp => exact .ignored hp rfl
    case isFalse hp => exact .latched _ hp (.inl rfl) rfl
  | ok i =>
    rw [execWord_of_decode hd] at h
    rcases exec_next h with ⟨c, hc, ht⟩ | ⟨rfl, ht⟩ | ⟨-, -, hp, ht⟩ | ⟨n, -, ha, ht⟩ | ⟨u, -, ha, -, hpush⟩ |
      ⟨-, ha, -, hend⟩ | ⟨-, -, hp, e, ht, hraise⟩
    · exact .cfg i c hd hc ht
    · exact .abort hd ht
    · exact .ignored hp ht
    · exact .checked ha ht
    · exact .pushed ha (pushRule_effect hpush)
    · exact .ended ha (endRule_effect hend)
    · exact .latched e hp (.inr hraise) ht

section

variable {w : Word} {s t : State}

/-- A word other than a legal CFG and ABORT that finds PHASE other than ACTIVE is ignored, in ERROR, or latches an error
(R402, R405). -/
theorem execWord_of_not_active (hw : ∀ i, decode w = .ok i → i.restarts = false) (hs : s.phase ≠ .active)
    (h : execWord w s = .next t) :
    (s.phase = .error ∧ t = s) ∨ (s.phase ≠ .error ∧ ∃ e, t = s.latch e) := by
  cases execWord_effect h with
  | cfg i c hd hc =>
    obtain ⟨hnocfg, -⟩ := restarts_eq_false (hw i hd)
    simp [hnocfg] at hc
  | abort hd => exact absurd rfl (restarts_eq_false (hw _ hd)).2
  | ignored hp ht => exact .inl ⟨hp, ht⟩
  | checked ha => exact absurd ha hs
  | pushed ha => exact absurd ha hs
  | ended ha => exact absurd ha hs
  | latched e hp _ ht => exact .inr ⟨hp, e, ht⟩

/-- A word that changes a state in ERROR is a CFG or ABORT. -/
theorem execWord_leaves_error (hs : s.phase = .error) (h : execWord w s = .next t) (hne : t ≠ s) :
    (∃ i c, decode w = .ok i ∧ i.cfg? = some c ∧ t = s.configure c) ∨ (decode w = .ok .abort ∧ t = s.goIdle) := by
  cases execWord_effect h with
  | cfg i c hd hc ht => exact .inl ⟨i, c, hd, hc, ht⟩
  | abort hd ht => exact .inr ⟨hd, ht⟩
  | ignored _ ht => exact absurd ht hne
  | checked _ ht => exact absurd ht hne
  | pushed ha => simp [hs] at ha
  | ended ha => simp [hs] at ha
  | latched _ hp => exact absurd hs hp

/-- What a word that brings PHASE to ERROR latches: ILLEGAL_COMMAND, or what its command raises. -/
theorem execWord_enters_error_raises (hs : s.phase ≠ .error) (h : execWord w s = .next t) (ht : t.phase = .error) :
    ∃ e, (e.cause = .illegalCommand ∨ s.Raises e) ∧ t = s.latch e := by
  cases execWord_effect h with
  | cfg _ _ _ _ he => simp [he] at ht
  | abort _ he => simp [he] at ht
  | ignored hp => exact absurd hp hs
  | checked _ he => exact absurd (he ▸ ht) hs
  | pushed _ he => exact absurd (he.phase.symm.trans ht) hs
  | ended _ he => simp [he.phase] at ht
  | latched e _ hraise he => exact ⟨e, hraise, he⟩

/-- With READY = 1 no word brings CAUSE to OVERRUN (R403). -/
theorem execWord_cause_ne_overrun (hr : s.ready = true) (hs : s.cause ≠ .overrun) (h : execWord w s = .next t) :
    t.cause ≠ .overrun := by
  cases execWord_effect h with
  | cfg _ _ _ _ ht => simp [ht]
  | abort _ ht => simp [ht]
  | ignored _ ht => exact ht ▸ hs
  | checked _ ht => exact ht ▸ hs
  | pushed _ he => exact he.cause ▸ hs
  | ended _ he => exact he.cause ▸ hs
  | latched e _ hraise ht =>
    subst ht
    show e.cause ≠ .overrun
    rcases hraise with hc | hc | ⟨-, hready⟩ | ⟨hc | hc, -⟩
    · simp [hc]
    · simp [hc]
    · simp [hr] at hready
    · simp [hc]
    · simp [hc]

end

/-! The ERROR state. -/

/-- Settles O25: in ERROR such a word has a next state, and is not one of those that latch (`execWord_of_not_active`). -/
theorem errorIgnoresEveryOtherWord : Obligations.ErrorIgnoresEveryOtherWord := by
  intro s w hs hw
  obtain ⟨t, ht⟩ := execWord_total w s
  rcases execWord_of_not_active hw (by simp [hs]) ht with ⟨-, rfl⟩ | ⟨hp, -⟩
  · exact ht
  · exact absurd hs hp

/-- Settles O27: the word is a CFG or ABORT (`execWord_leaves_error`), and both clear the error. -/
theorem errorIsLeftOnlyByCfgOrAbort : Obligations.ErrorIsLeftOnlyByCfgOrAbort := by
  intro s t w hs h hne
  rcases execWord_leaves_error hs h hne with ⟨i, c, hd, hc, rfl⟩ | ⟨hd, rfl⟩
  · exact ⟨⟨i, hd, .inr ⟨c, hc⟩⟩, by simp, rfl, rfl⟩
  · exact ⟨⟨.abort, hd, .inl rfl⟩, by simp, rfl, rfl⟩

/-! Encode operations. -/

/-- In an encode mode the PUSH rule raises nothing (R329). -/
theorem pushRule_of_enc {s : State} (h : s.cfgr.dir = .enc) (u : Byte) : ∃ t, pushRule u s = .ok t := by
  cases hr : pushRule u s with
  | ok t => exact ⟨t, rfl⟩
  | error e => cases h.symm.trans (pushRule_raises hr).1

/-- In an encode mode the END rule raises nothing (R329). -/
theorem endRule_of_enc {s : State} (h : s.cfgr.dir = .enc) : ∃ t, endRule s = .ok t := by
  cases hr : endRule s with
  | ok t => exact ⟨t, rfl⟩
  | error e => cases h.symm.trans (endRule_raises hr).1

/-- Settles O28: no encode rule raises, and of what any word raises only the decode errors need a decode mode. -/
theorem encodeNeverFailsOnItsData : Obligations.EncodeNeverFailsOnItsData := by
  refine fun s henc => ⟨fun ha hr => ⟨fun u => ?push, ?endOp⟩, fun w t hs h ht => ?raised⟩
  case push =>
    obtain ⟨t, ht⟩ := pushRule_of_enc henc u
    exact ⟨t, by rw [exec_push_of_ready ha hr, ht, commit_ok], (pushRule_effect ht).phase.trans ha⟩
  case endOp =>
    obtain ⟨t, ht⟩ := endRule_of_enc henc
    exact ⟨t, by rw [exec_end_of_ready ha hr, ht, commit_ok], (endRule_effect ht).phase⟩
  case raised =>
    obtain ⟨e, hraise, rfl⟩ := execWord_enters_error_raises hs h ht
    rcases hraise with hc | hc | ⟨hc, -⟩ | ⟨-, hdec⟩
    · exact .inl hc
    · exact .inr (.inl hc)
    · exact .inr (.inr hc)
    · simp [henc] at hdec

/-! Room in the FIFO. -/

/-- An unbounded FIFO is always READY (R44). -/
theorem State.ready_of_unbounded {s : State} (h : s.params.outDepth = .unbounded) : s.ready = true := by
  simp [s.ready_iff, h]

/-- A FIFO with fewer than 8 entries free is not READY (R44). -/
theorem State.ready_of_lt {s : State} {n : Nat} (hd : s.params.outDepth = .units n) (hn : n < s.fifo.length + 8) :
    s.ready = false := by
  rw [← Bool.not_eq_true, s.ready_iff, hd]
  simp only
  omega

/-- PUSH and END without room raise OVERRUN before their mode rule is looked at (R403, R408). -/
theorem run_without_room {s : State} (ha : s.phase = .active) (hr : s.ready = false) (r : Except Raise State) :
    runUnlessError s (admitted s r) = .next (s.withError .overrun s.offset) := by
  rw [admitted_of_not_ready ha hr, runUnlessError_of_ne (by simp [ha])]
  rfl

/-- Settles O24: without room both are refused (`run_without_room`), and an unbounded FIFO always has room. -/
theorem noRoomRaisesOverrun : Obligations.NoRoomRaisesOverrun := by
  refine ⟨fun s n ha hd hn => ?_, fun s t w hd hs h => execWord_cause_ne_overrun (State.ready_of_unbounded hd) hs h⟩
  have hr := State.ready_of_lt hd hn
  exact ⟨fun u => run_without_room ha hr _, run_without_room ha hr _⟩

/-- Outside ERROR there is no CAUSE (R34, R50). -/
theorem State.Inv.cause_of_ne {s : State} (h : s.Inv) (hp : s.phase ≠ .error) : s.cause = .none :=
  not_not.mp fun hc => hp (h.causeIff.mp hc)

/-- Settles O31: an empty FIFO has room under admitted parameters, and there is no CAUSE before the word. -/
theorem drainedHostNeverOverruns : Obligations.DrainedHostNeverOverruns := fun _ _ _ hinv hf hp h =>
  execWord_cause_ne_overrun (ready_of_empty hinv.admitted hf) (by simp [hinv.cause_of_ne hp]) h

end Sys2Proof.Machine
end

section
/-! CFG, ABORT and LCHK (R320, R321, R324), the commands out of order (R402), and the empty input (R327). -/

namespace Sys2Proof.Machine

open Sys2Proof Sys2Proof.Config

/-! CFG. -/

/-- The row of a CFG command in R104: the command and the fields of its configuration. -/
def cfgRow (i : Instr) : Option (Instr × Codec × Dir × Bool × Bool) :=
  i.cfg?.map fun c => (i, c.codec, c.dir, c.optpad, c.foldz)

/-- A row belongs to the command whose configuration it holds. -/
theorem cfg?_of_cfgRow {i j : Instr} {c : Codec} {d : Dir} {optpad foldz : Bool}
    (h : cfgRow j = some (i, c, d, optpad, foldz)) : i.cfg? = some ⟨c, d, optpad, foldz⟩ := by
  obtain ⟨cfg, hcfg, hrow⟩ := Option.map_eq_some_iff.mp h
  cases hrow
  exact hcfg

/-- The word of a CFG command holds its configuration in its low six bits (R101, R104). -/
theorem encode_cfg_low {i : Instr} {c : Cfg} (h : i.cfg? = some c) : (encode i).extractLsb' 0 6 = c.bits := by
  rw [encode_cfg h]
  exact BitVec.extractLsb'_append_eq_right

/-- Settles O20: a CFG command configures (`exec_cfg`) what its row of R104 holds, and leaves the FIFO empty. -/
theorem cfgStartsAnOperation : Obligations.CfgStartsAnOperation := by
  intro s i c d optpad foldz hrow
  obtain ⟨j, -, hj⟩ := (List.mem_filterMap (f := cfgRow) (l := cfgInstrs)).mp hrow
  have hcfg := cfg?_of_cfgRow hj
  refine ⟨_, exec_cfg hcfg s, rfl, ?_, rfl, fun hadm => ready_of_empty hadm rfl⟩
  rw [encode_cfg_low hcfg]
  rfl

/-! ABORT. -/

/-- STATUS after ABORT: only READY is set (R44, R324). -/
theorem State.goIdle_status {s : State} (h : s.params.Admitted) : s.goIdle.status = 0x00000020#32 := by
  have hr : s.goIdle.ready = true := ready_of_empty h rfl
  simp [State.status, State.outValid, hr, causeCode, phaseCode]

/-- An IDLE state is already cleared (R50), so that ABORT changes nothing in it. -/
theorem State.Inv.goIdle_of_idle {s : State} (h : s.Inv) (hp : s.phase = .idle) : s.goIdle = s := by
  have hne : s.phase ≠ .error := by simp [hp]
  have hcause := h.cause_of_ne hne
  have herr := h.errOffZero hne
  obtain ⟨hblk, hoff, hcnt, hclosed, hfifo, hpadoff⟩ := h.idleCleared hp
  obtain ⟨hacc, hpad⟩ := h.emptyBlock hblk
  cases s
  simp_all [State.goIdle, State.clearOperation]

/-- Settles O21: ABORT is `State.goIdle` in every phase. -/
theorem abortGoesIdle : Obligations.AbortGoesIdle := fun s =>
  ⟨s.goIdle, exec_abort s, rfl, State.goIdle_status, State.Inv.goIdle_of_idle⟩

/-! LCHK. -/

/-- The lengths that cannot be, by the block sizes of the three codecs that check one (R321). -/
theorem badArrayLength_iff (c : Cfg) (n : BitVec 28) : badArrayLength c n = true ↔
    c.dir = .dec ∧ c.optpad = false ∧ ((c.codec = .b16 ∧ n.toNat % 2 ≠ 0) ∨ (c.codec = .b32 ∧ n.toNat % 8 ≠ 0) ∨
      (c.codec = .b64 ∧ n.toNat % 4 ≠ 0)) := by
  have hsyms : bitSyms .b16 = 2 ∧ bitSyms .b32 = 8 ∧ bitSyms .b64 = 4 := by decide
  obtain ⟨h16, h32, h64⟩ := hsyms
  unfold badArrayLength
  cases hc : c.codec <;> simp [lengthChecked, h16, h32, h64, and_assoc]

/-- Settles O22: outside ERROR an LCHK is its rule's transaction, and the rule's checks are those of R321. -/
theorem lchkChecksTheLength : Obligations.LchkChecksTheLength := by
  intro s n hs
  rw [exec_lchk, runUnlessError_of_ne hs, lengthCheck]
  simp only [badArrayLength_iff]
  split
  · rfl
  · split <;> rfl

/-- Settles O23: the phase check of PUSH and END, and the order check of LCHK (`lchkChecksTheLength`). -/
theorem outOfOrderCommandsRaiseSequence : Obligations.OutOfOrderCommandsRaiseSequence := by
  refine fun s => ⟨fun hp => ?_, fun ha hoff n => ?_⟩
  · have hne : s.phase ≠ .active ∧ s.phase ≠ .error := by rcases hp with hp | hp <;> simp [hp]
    obtain ⟨hactive, herror⟩ := hne
    have hrun (r : Except Raise State) :
        runUnlessError s (admitted s r) = .next (s.withError .sequence s.offset) := by
      rw [admitted_of_not_active hactive, runUnlessError_of_ne herror]
      rfl
    refine ⟨fun u => hrun _, hrun _, fun n => ?_⟩
    rw [lchkChecksTheLength s n herror, if_pos (.inl hactive)]
  · rw [lchkChecksTheLength s n (by simp [ha]), if_pos (.inr hoff)]

/-! The empty input. -/

/-- Settles O32: LCHK 0 right after CFG finds no fault, 0 being a multiple of every block size, and END there has no
block to flush (`exec_end_of_empty`). -/
theorem emptyInputGivesEmptyOutput : Obligations.EmptyInputGivesEmptyOutput := by
  intro s i c hadm hcfg
  have hstart := State.configure_atBoundary hadm c
  refine ⟨s.configure c, _, exec_cfg hcfg s, ?_, exec_end_of_empty hstart.admits hstart.blk, rfl, rfl, rfl⟩
  rw [lchkChecksTheLength _ _ (by simp)]
  simp

end Sys2Proof.Machine
end

section
/-! The step on an illegal word and with nothing to do (R401, R420), and reset (R450, R452). -/

namespace Sys2Proof.Machine

open Sys2Proof Sys2Proof.Config

/-- Settles O12: the step executes the word (`step_cmdWrite`), which is illegal. -/
theorem illegalWordLatches : Obligations.IllegalWordLatches := by
  intro s w r es hev hdecode hs
  rw [step_cmdWrite hev, execWord_of_illegal hdecode, execIllegal_eq, if_neg hs]
  rfl

/-- Settles O13: the fetch finds no event. -/
theorem idleStepHoldsTheState : Obligations.IdleStepHoldsTheState := fun s hev =>
  step_of_settled (by simp [fetchEvent, hev])

/-- Reset of one engine of a platform leaves the entry of every other as it is (R450). -/
theorem Platform.resetEngine_other (p : Platform) {i j : Nat} (h : j ≠ i) :
    (p.resetEngine i).engines[j]? = p.engines[j]? := List.getElem?_modify_ne _ _ (Ne.symm h)

/-- Settles O6: the registers by evaluation of the reset state, the platform by `Platform.resetEngine_other`. -/
theorem resetValues : Obligations.ResetValues :=
  ⟨by decide, rfl, rfl, rfl, rfl, rfl, rfl, rfl, rfl, rfl, rfl, rfl, by decide, readOutData_of_nil (s := State.reset) rfl,
    fun p _ _ => p.resetEngine_other⟩

/-- Settles O7: the fetch of a reset resets the registers and keeps the parameters, the agent and the host's lists
(log entry 12). -/
theorem resetDiscardsTheOperation : Obligations.ResetDiscardsTheOperation := by
  intro s es hev
  have hfetch : fetchEvent s = .settled (.next { s with events := es }.resetInstance) := by simp [fetchEvent, hev]
  exact step_of_settled hfetch

end Sys2Proof.Machine
end

section
/-! Operations and their results (R330 to R332, R410): what each word makes of the operation in progress and of one that
ended. -/

namespace Sys2Proof.Machine

open Sys2Proof

/-- ABORT cancels (R324, R332). -/
theorem Progress.next_abort {w : Word} (h : decode w = .ok .abort) (p : Progress) (s t : State) :
    p.next w s t = p.cancel := by
  simp [Progress.next, h, Instr.cfg?]

/-- Settles O58: a CFG starts over; any other word but ABORT adds the units it emits (`execWord_emits`), and the phase it
leaves says whether the operation goes on and what its result is. -/
theorem resultIsTheUnitsSinceCfg : Obligations.ResultIsTheUnitsSinceCfg := by
  refine fun s t w h => ⟨fun i p hdecode hcfg => ?start, fun us hw ha hcnt => ?goOn⟩
  case start =>
    obtain ⟨c, hc⟩ := Option.isSome_iff_exists.mp hcfg
    rw [execWord_of_decode hdecode, exec_cfg hc] at h
    cases h
    exact ⟨Progress.next_cfg hdecode hc p s _, rfl, rfl, rfl⟩
  case goOn =>
    obtain ⟨new, hfifo, hout, hidle⟩ := execWord_emits hw h
    have hnext : (Progress.running us).next w s t = (Progress.running us).advance new t := by
      rw [Progress.next_of_not_restart hw, emittedBy_of_append hfifo]
    refine ⟨new, hfifo, ?_, hidle (by simp [ha]), fun hp => ?_, fun hp => ?_, fun hp => ?_⟩
    · rw [hout, hcnt, List.length_append, BitVec.ofNat_add]
    · rw [hnext, Progress.advance_active hp]
    · rw [hnext, Progress.advance_done hp]
    · rw [hnext, Progress.advance_error hp]
      cases hc : t.cause <;> simp [resultOf, hp, hc]

/-- Settles O59: after the end a word other than CFG and ABORT is ignored or latches (`execWord_of_not_active`), and
neither touches what the operation counted; its result is kept, by ABORT too. -/
theorem resultIsFixedAtTheEnd : Obligations.ResultIsFixedAtTheEnd := by
  refine fun s t w h => ⟨fun hended hw => ?after, fun habort => ?abort⟩
  case after =>
    have hs : s.phase ≠ .active := by rcases hended with hp | hp <;> simp [hp]
    have hresult (r : OpResult) : (Progress.ended r).next w s t = .ended r := by
      rw [Progress.next_of_not_restart hw, Progress.advance_ended]
    rcases execWord_of_not_active hw hs h with ⟨hp, rfl⟩ | ⟨-, e, rfl⟩
    · exact ⟨hp, rfl, rfl, rfl, hresult⟩
    · exact ⟨rfl, rfl, rfl, rfl, hresult⟩
  case abort =>
    exact ⟨fun us => Progress.next_abort habort _ s t, fun r => Progress.next_abort habort _ s t⟩

end Sys2Proof.Machine
end
